-- ==== Sys2Proof/Word.lean ====
section
/-! DEFINITION. Sys2Proof/Word.lean: the register word and the byte. -/

namespace Sys2Proof

/-- The width of every engine register and of a memory address (00_scope.md R10: REG_BITS = ADDR_BITS = 32). -/
abbrev Word := BitVec 32

/-- The smallest addressable unit of system memory (20_memory.md R50: byte-addressed). -/
abbrev Byte := BitVec 8

end Sys2Proof
end

