-- ==== Sys2Proof/Config.lean ====
section
/-! DEFINITION. Sys2Proof/Config.lean: what the platform fixes and the spec leaves open. -/

namespace Sys2Proof

/-- The upper 26 bits of ENGINE_BASE. 20_memory.md R62: ENGINE_BASE is "a multiple of 64" and "an open parameter of
the model" (00_scope.md R10, 93_implementation_defined.md U13): no body, so no proof can use its value. -/
opaque Config.enginePage : BitVec 26

/-- ENGINE_BASE, the byte address of the register block, a multiple of 64 (20_memory.md R62). Host accesses are
named by their offset from it (30_encoding.md R91), so no rule depends on its value (92_eei_decisions.md D4). -/
def Config.engineBase : Word := Config.enginePage ++ 0#6

end Sys2Proof
end

