-- ==== Sys2Proof/Syntax.lean ====
section
/-! DEFINITION. Sys2Proof/Syntax.lean: the 26 commands of spec/opcode_table.json, their operand fields, and the
configuration errors. -/

namespace Sys2Proof

/-- The five operations (30_encoding.md R83; "exactly five operations"). -/
inductive Op where
  | copy | inv | and | or | xor
deriving DecidableEq, Repr

/-- The value of a WD or WS field (30_encoding.md R84): 8, 16 or 32 bits, or the reserved code 3, which a command
other than NOP refuses after decoding (R86: "operand fields checked after decoding"). -/
inductive WidthCode where
  | w8 | w16 | w32 | reserved
deriving DecidableEq, Repr

/-- The configuration errors of 60_exceptions.md R211, by the names of its table. -/
inductive CfgErr where
  | rsvdBits | illFunc | illOp | illWidth | widthRel | shiftRange | misaligned | zeroCap
deriving DecidableEq, Repr

/-- The command words, one constructor for each row of spec/opcode_table.json (30_encoding.md R86). `wd` and `ws` are
the fields WD (bits 9:8) and WS (bits 11:10). NOP's row leaves OP, WD and WS free, and NOP ignores them (R200). -/
inductive Instr where
  | nop (op : BitVec 3) (wd ws : WidthCode)
  | rmwCopy (wd ws : WidthCode)
  | rmwInv (wd ws : WidthCode)
  | rmwAnd (wd ws : WidthCode)
  | rmwOr (wd ws : WidthCode)
  | rmwXor (wd ws : WidthCode)
  | blit1dCopy (wd ws : WidthCode)
  | blit1dInv (wd ws : WidthCode)
  | blit1dAnd (wd ws : WidthCode)
  | blit1dOr (wd ws : WidthCode)
  | blit1dXor (wd ws : WidthCode)
  | blit2dCopy (wd ws : WidthCode)
  | blit2dInv (wd ws : WidthCode)
  | blit2dAnd (wd ws : WidthCode)
  | blit2dOr (wd ws : WidthCode)
  | blit2dXor (wd ws : WidthCode)
  | blit2dpCopy (wd ws : WidthCode)
  | blit2dpInv (wd ws : WidthCode)
  | blit2dpAnd (wd ws : WidthCode)
  | blit2dpOr (wd ws : WidthCode)
  | blit2dpXor (wd ws : WidthCode)
  | packCopy (wd ws : WidthCode)
  | packInv (wd ws : WidthCode)
  | packAnd (wd ws : WidthCode)
  | packOr (wd ws : WidthCode)
  | packXor (wd ws : WidthCode)
deriving DecidableEq, Repr

/-- The RMW command with a given operation: one of RMW.COPY, RMW.INV, RMW.AND, RMW.OR, RMW.XOR (40_rmw.md R112). -/
def Instr.rmw : Op → WidthCode → WidthCode → Instr
  | .copy => .rmwCopy | .inv => .rmwInv | .and => .rmwAnd | .or => .rmwOr | .xor => .rmwXor

/-- The BLIT1D command with a given operation (41_blit1d.md R120). -/
def Instr.blit1d : Op → WidthCode → WidthCode → Instr
  | .copy => .blit1dCopy | .inv => .blit1dInv | .and => .blit1dAnd | .or => .blit1dOr | .xor => .blit1dXor

/-- The BLIT2D command with a given operation (42_blit2d.md R154). -/
def Instr.blit2d : Op → WidthCode → WidthCode → Instr
  | .copy => .blit2dCopy | .inv => .blit2dInv | .and => .blit2dAnd | .or => .blit2dOr | .xor => .blit2dXor

/-- The BLIT2DP command with a given operation (42_blit2d.md R155). -/
def Instr.blit2dp : Op → WidthCode → WidthCode → Instr
  | .copy => .blit2dpCopy | .inv => .blit2dpInv | .and => .blit2dpAnd | .or => .blit2dpOr | .xor => .blit2dpXor

/-- The PACK command with a given operation (43_pack.md R180). -/
def Instr.pack : Op → WidthCode → WidthCode → Instr
  | .copy => .packCopy | .inv => .packInv | .and => .packAnd | .or => .packOr | .xor => .packXor

end Sys2Proof
end

