-- ==== Sys2Proof/Decode.lean ====
section
/-! DEFINITION. Sys2Proof/Decode.lean: the decoder of command words and the encoder, from 30_encoding.md R80 to R90. -/

namespace Sys2Proof

/-- The FUNC values 0 to 5 (30_encoding.md R82). -/
inductive Func where
  | nop | rmw | blit1d | blit2d | blit2dp | pack
deriving DecidableEq, Repr

/-- FUNC, bits 3:0 (30_encoding.md R81). -/
def fieldFunc (w : Word) : BitVec 4 := w.extractLsb' 0 4

/-- OP, bits 6:4 (30_encoding.md R81). -/
def fieldOp (w : Word) : BitVec 3 := w.extractLsb' 4 3

/-- The reserved bit 7 (30_encoding.md R81). -/
def fieldBit7 (w : Word) : BitVec 1 := w.extractLsb' 7 1

/-- WD, bits 9:8 (30_encoding.md R81). -/
def fieldWd (w : Word) : BitVec 2 := w.extractLsb' 8 2

/-- WS, bits 11:10 (30_encoding.md R81). -/
def fieldWs (w : Word) : BitVec 2 := w.extractLsb' 10 2

/-- The reserved bits 31:12 (30_encoding.md R81). -/
def fieldHigh (w : Word) : BitVec 20 := w.extractLsb' 12 20

/-- FUNC selects the command; 6 to 15 are reserved (30_encoding.md R82). -/
def decodeFunc (f : BitVec 4) : Option Func :=
  match f.toNat with
  | 0 => some .nop
  | 1 => some .rmw
  | 2 => some .blit1d
  | 3 => some .blit2d
  | 4 => some .blit2dp
  | 5 => some .pack
  | _ => none

/-- OP selects the operation; 5 to 7 are reserved (30_encoding.md R83). -/
def decodeOp (o : BitVec 3) : Option Op :=
  match o.toNat with
  | 0 => some .copy
  | 1 => some .inv
  | 2 => some .and
  | 3 => some .or
  | 4 => some .xor
  | _ => none

/-- The width codes (30_encoding.md R84). -/
def decodeWidth (c : BitVec 2) : WidthCode :=
  match c.toNat with
  | 0 => .w8
  | 1 => .w16
  | 2 => .w32
  | _ => .reserved

/-- A command that carries an operation: OP 5 to 7 are refused with code 3, else the constructor `mk` takes the
operation and the two width fields (30_encoding.md R83, R84, R90). -/
def decodeWithOp (mk : Op → WidthCode → WidthCode → Instr) (w : Word) : Except CfgErr Instr :=
  match decodeOp (fieldOp w) with
  | none => .error .illOp
  | some o => .ok (mk o (decodeWidth (fieldWd w)) (decodeWidth (fieldWs w)))

/-- The decoder, total on 32-bit words, with the tests in the priority order of 30_encoding.md R90: reserved bits
(code 1), FUNC (code 2), NOP before OP is looked at, OP (code 3). The width codes stay operand fields of the command
(R86) and are checked when it runs (codes 4 and 5). -/
def decode (w : Word) : Except CfgErr Instr :=
  if fieldHigh w ≠ 0 ∨ fieldBit7 w ≠ 0 then .error .rsvdBits
  else
    match decodeFunc (fieldFunc w) with
    | none => .error .illFunc
    | some .nop => .ok (.nop (fieldOp w) (decodeWidth (fieldWd w)) (decodeWidth (fieldWs w)))
    | some .rmw => decodeWithOp .rmw w
    | some .blit1d => decodeWithOp .blit1d w
    | some .blit2d => decodeWithOp .blit2d w
    | some .blit2dp => decodeWithOp .blit2dp w
    | some .pack => decodeWithOp .pack w

/-- What the decoder reads from a command whose bits are `w`, numbered as spec/opcode_table.json numbers them; bits
from `nbits` up are 0. A command is one 32-bit word (30_encoding.md R80). -/
def decodeTableWord (nbits w : Nat) : Option Instr :=
  match decode (BitVec.ofNat 32 (w % 2 ^ nbits)) with
  | .ok i => some i
  | .error _ => none

/-- The FUNC code of a command (30_encoding.md R82). -/
def encodeFunc : Func → BitVec 4
  | .nop => 0 | .rmw => 1 | .blit1d => 2 | .blit2d => 3 | .blit2dp => 4 | .pack => 5

/-- The OP code of an operation (30_encoding.md R83). -/
def encodeOp : Op → BitVec 3
  | .copy => 0 | .inv => 1 | .and => 2 | .or => 3 | .xor => 4

/-- The code of a width field (30_encoding.md R84). -/
def encodeWidth : WidthCode → BitVec 2
  | .w8 => 0 | .w16 => 1 | .w32 => 2 | .reserved => 3

/-- Format C (30_encoding.md R81): the fields from bit 31 down are reserved zeros, WS, WD, a zero, OP, FUNC. -/
def commandWord (f : Func) (op : BitVec 3) (wd ws : WidthCode) : Word :=
  0#20 ++ encodeWidth ws ++ encodeWidth wd ++ 0#1 ++ op ++ encodeFunc f

/-- The command word of an instruction (30_encoding.md R81, R86). -/
def encode : Instr → Word
  | .nop op wd ws => commandWord .nop op wd ws
  | .rmwCopy wd ws => commandWord .rmw (encodeOp .copy) wd ws
  | .rmwInv wd ws => commandWord .rmw (encodeOp .inv) wd ws
  | .rmwAnd wd ws => commandWord .rmw (encodeOp .and) wd ws
  | .rmwOr wd ws => commandWord .rmw (encodeOp .or) wd ws
  | .rmwXor wd ws => commandWord .rmw (encodeOp .xor) wd ws
  | .blit1dCopy wd ws => commandWord .blit1d (encodeOp .copy) wd ws
  | .blit1dInv wd ws => commandWord .blit1d (encodeOp .inv) wd ws
  | .blit1dAnd wd ws => commandWord .blit1d (encodeOp .and) wd ws
  | .blit1dOr wd ws => commandWord .blit1d (encodeOp .or) wd ws
  | .blit1dXor wd ws => commandWord .blit1d (encodeOp .xor) wd ws
  | .blit2dCopy wd ws => commandWord .blit2d (encodeOp .copy) wd ws
  | .blit2dInv wd ws => commandWord .blit2d (encodeOp .inv) wd ws
  | .blit2dAnd wd ws => commandWord .blit2d (encodeOp .and) wd ws
  | .blit2dOr wd ws => commandWord .blit2d (encodeOp .or) wd ws
  | .blit2dXor wd ws => commandWord .blit2d (encodeOp .xor) wd ws
  | .blit2dpCopy wd ws => commandWord .blit2dp (encodeOp .copy) wd ws
  | .blit2dpInv wd ws => commandWord .blit2dp (encodeOp .inv) wd ws
  | .blit2dpAnd wd ws => commandWord .blit2dp (encodeOp .and) wd ws
  | .blit2dpOr wd ws => commandWord .blit2dp (encodeOp .or) wd ws
  | .blit2dpXor wd ws => commandWord .blit2dp (encodeOp .xor) wd ws
  | .packCopy wd ws => commandWord .pack (encodeOp .copy) wd ws
  | .packInv wd ws => commandWord .pack (encodeOp .inv) wd ws
  | .packAnd wd ws => commandWord .pack (encodeOp .and) wd ws
  | .packOr wd ws => commandWord .pack (encodeOp .or) wd ws
  | .packXor wd ws => commandWord .pack (encodeOp .xor) wd ws

end Sys2Proof
end

