-- ==== Sys2Proof/Machine/Memory.lean ====
section
/-! DEFINITION. Sys2Proof/Machine/Memory.lean: system memory (20_memory.md R50 to R53): a byte-addressed space of
2^32 bytes, little-endian, held as a list of cells in one canonical form. -/

namespace Sys2Proof.Machine

/-- System memory: the bytes that differ from `Memory.unlisted`, by strictly rising address. -/
abbrev Memory := List Host.Cell

/-- What an address that is not listed reads as: a byte that nothing has written. DESIGN CHOICE (log entry 2), unsafe:
the spec says only that reset does not touch memory (10_state.md R36). -/
def Memory.unlisted : Byte := 0#8

/-- The byte at an address. -/
def Memory.read : Memory → Nat → Byte
  | [], _ => Memory.unlisted
  | c :: m, x => if c.1 = x then c.2 else Memory.read m x

/-- The memory with the cell of an address taken out: the address reads `Memory.unlisted`. -/
def Memory.forget (m : Memory) (x : Nat) : Memory :=
  m.filter fun c => c.1 != x

/-- A cell put in its place in a list sorted by address. -/
def Memory.place : Memory → Nat → Byte → Memory
  | [], x, v => [(x, v)]
  | c :: m, x, v => if x < c.1 then (x, v) :: c :: m else c :: Memory.place m x v

/-- One byte written, keeping the canonical form. -/
def Memory.write (m : Memory) (x : Nat) (v : Byte) : Memory :=
  if v = Memory.unlisted then m.forget x else (m.forget x).place x v

/-- The canonical form: addresses strictly rising and within the 2^32 bytes of 20_memory.md R50, and no cell equal to
what an unlisted address reads as. -/
abbrev Memory.wf (m : Memory) : Prop :=
  m.Pairwise (fun c d => c.1 < d.1) ∧ ∀ c ∈ m, c.1 < 2 ^ 32 ∧ c.2 ≠ Memory.unlisted

/-- The address of byte j of an access: (addr + j) mod 2^32 (20_memory.md R53). -/
def byteAddr (a : Word) (j : Nat) : Word := a + BitVec.ofNat 32 j

/-- MemRead(addr, n): the sum over j in 0..n-1 of byte[(addr + j) mod 2^32] * 2^(8j) (20_memory.md R53). -/
def Memory.readBytes (m : Memory) (a : Word) : Nat → Nat
  | 0 => 0
  | n + 1 => Memory.readBytes m a n + (m.read (byteAddr a n).toNat).toNat * 2 ^ (8 * n)

/-- MemWrite(addr, n, v): byte[(addr + j) mod 2^32] <- v[8j+7:8j] for j in 0..n-1 (20_memory.md R53). -/
def Memory.writeBytes (m : Memory) (a : Word) (v : Nat) : Nat → Memory
  | 0 => m
  | n + 1 => (Memory.writeBytes m a v n).write (byteAddr a n).toNat (BitVec.ofNat 8 (v >>> (8 * n)))

/-- One storage element of width W read: W/8 bytes (20_memory.md R51). -/
def Memory.readElem (m : Memory) (a : Word) (W : Nat) : BitVec W :=
  BitVec.ofNat W (m.readBytes a (W / 8))

/-- One storage element of width W written: W/8 bytes (20_memory.md R51). -/
def Memory.writeElem (m : Memory) (a : Word) {W : Nat} (v : BitVec W) : Memory :=
  m.writeBytes a v.toNat (W / 8)

end Sys2Proof.Machine
end

