-- ==== Sys2Proof/Machine/State.lean ====
section
/-! DEFINITION. Sys2Proof/Machine/State.lean: the state of the engine and its memory (10_state.md R20 to R38), what
the host does to it, the reasons to stop, and the state after reset. -/

namespace Sys2Proof.Machine

/-- Why the machine stops with a fault. -/
inductive Fault where
  /-- A memory access at an address with nothing behind it: the command is stuck (20_memory.md R71,
  93_implementation_defined.md U8: "stuck", "do not invent a read value, do not drop the write"). Raised by
  `State.finish` and `State.resetDuring` for a command's access and by `State.hostMemory` for the host's own. Safe:
  the spec gives the hardware no behaviour here. -/
  | accessNotCompleted
deriving DecidableEq, Repr

/-- Why the model refuses an input. -/
inductive Refusal where
  /-- An instruction without a meaning yet. No arm of this model answers it. Safe. -/
  | notModelled (mnemonic : String)
  /-- A register access that is not an aligned 32-bit word of offsets 0x00 to 0x3C (10_state.md R30, R31,
  93_implementation_defined.md U9: "outside the spec: a model refuses them"). Raised by `State.serve`. Safe. -/
  | registerAccess
deriving DecidableEq, Repr

/-- The twelve descriptor registers, host-owned and never written by the engine (10_state.md R21, R22). -/
structure Descriptors where
  dstBase : Word
  dstCap : Word
  dstRows : Word
  dstX : Word
  dstY : Word
  srcBase : Word
  srcW : Word
  srcH : Word
  shift : Word
  mask : Word
  opa : Word
  opb : Word
deriving DecidableEq, Repr

/-- The fields of STATUS that are not fixed at 0 (10_state.md R26): CFGERR, bit 0, and ERRCODE, bits 7:4. The whole
32-bit register is `Status.word`. -/
structure Status where
  cfgErr : Bool
  errCode : BitVec 4
deriving DecidableEq, Repr

/-- One access of the master port, named as 20_memory.md R54 names the primitives: an element of `size` bytes at byte
address `addr`, and for a write the element's value (zero-extended). -/
inductive BusAccess where
  | srcRead (addr : Word) (size : Nat)
  | dstRead (addr : Word) (size : Nat)
  | dstWrite (addr : Word) (size : Nat) (value : Word)
deriving DecidableEq, Repr

/-- A region of addresses with nothing behind them (20_memory.md R71). -/
structure Region where
  base : Nat
  size : Nat
deriving DecidableEq, Repr

/-- What the host, and the world outside, does to the engine: one event is served by one step (log entry 1). -/
inductive HostEvent where
  /-- A write of `size` bytes to the register at `offset` from ENGINE_BASE (30_encoding.md R91). -/
  | regWrite (offset : Word) (size : Nat) (value : Word)
  /-- A read of `size` bytes of the register at `offset` from ENGINE_BASE. -/
  | regRead (offset : Word) (size : Nat)
  /-- The reset input while no command is in progress (70_reset_and_hazards.md R240, R241). -/
  | reset
  /-- A write of `word` to CMD, and the reset input after the command's first `k` memory accesses
  (70_reset_and_hazards.md R242). -/
  | cmdThenReset (word : Word) (k : Nat)
  /-- The host's own store of a byte in system memory, between commands (20_memory.md R65). -/
  | memStore (addr : Word) (value : Byte)
  /-- The host's own load of a byte of system memory, between commands (20_memory.md R65). -/
  | memLoad (addr : Word)
deriving DecidableEq, Repr

/-- The state: the register block (10_state.md R20, R21; the reserved word at 0x3C holds nothing), system memory
(R37), and four fields of the model's own: the host events still to come, oldest first; what the last event served
returned to the host; the master-port accesses it made, in order (20_memory.md R64); and the platform's regions with
nothing behind them, which no step writes (log entries 1, 3, 10). -/
structure State where
  cmd : Word
  status : Status
  desc : Descriptors
  res : Word
  mem : Memory
  pending : List HostEvent
  reply : Option Word
  trace : List BusAccess
  holes : List Region
deriving DecidableEq, Repr

/-- Every descriptor register after reset (10_state.md R36, 70_reset_and_hazards.md R241). -/
def Descriptors.reset : Descriptors :=
  { dstBase := 0, dstCap := 0, dstRows := 0, dstX := 0, dstY := 0, srcBase := 0, srcW := 0, srcH := 0,
    shift := 0, mask := 0, opa := 0, opb := 0 }

/-- STATUS after reset: CFGERR = 0 and ERRCODE = 0 (10_state.md R36). -/
def Status.clear : Status := { cfgErr := false, errCode := 0 }

/-- The machine right after reset: every register 0 (10_state.md R36), no byte of memory written (log entry 2), no
host event pending, no hole in the address space (log entries 3, 12). -/
def State.reset : State :=
  { cmd := 0, status := Status.clear, desc := Descriptors.reset, res := 0, mem := [], pending := [], reply := none,
    trace := [], holes := [] }

end Sys2Proof.Machine
end

