-- ==== Sys2Proof/Machine/Flags.lean ====
section
/-! DEFINITION. Sys2Proof/Machine/Flags.lean: STATUS, the only flag of the engine (10_state.md R26, R27, R29, R34). -/

namespace Sys2Proof.Machine

/-- The code of a configuration error (60_exceptions.md R211). -/
def errorCode : CfgErr → BitVec 4
  | .rsvdBits => 1 | .illFunc => 2 | .illOp => 3 | .illWidth => 4
  | .widthRel => 5 | .shiftRange => 6 | .misaligned => 7 | .zeroCap => 8

/-- STATUS as the host reads it: ERRCODE in bits 7:4, CFGERR in bit 0, every other bit 0 (10_state.md R26). -/
def Status.word (st : Status) : Word :=
  0#24 ++ st.errCode ++ 0#3 ++ BitVec.ofBool st.cfgErr

/-- STATUS after a refusal: the first code since CFGERR was last clear is kept (10_state.md R29,
60_exceptions.md R213). -/
def Status.record (st : Status) (e : CfgErr) : Status :=
  if st.cfgErr then st else { cfgErr := true, errCode := errorCode e }

/-- STATUS after the host writes v to it: v[0] = 1 clears CFGERR and ERRCODE, bits 31:1 of v are ignored
(10_state.md R27; CLRERR of 44_control.md R201 is v = 1). -/
def Status.write (st : Status) (v : Word) : Status :=
  if v.getLsbD 0 then Status.clear else st

end Sys2Proof.Machine
end

