-- ==== Sys2Proof/Machine/Ops.lean ====
section
/-! DEFINITION. Sys2Proof/Machine/Ops.lean: the named operations over registers and memory: refusing a command, the
element accesses, the loop, the register map, reset. -/

namespace Sys2Proof.Machine

/-- What a command changes while it runs: system memory, and the record of its accesses, in order. -/
structure Bus where
  mem : Memory
  log : List BusAccess
deriving DecidableEq, Repr

/-- ElemAddr(base, i, W) = (base + i * (W/8)) mod 2^32 (20_memory.md R52). -/
def elemAddr (base : Word) (i W : Nat) : Word :=
  base + BitVec.ofNat 32 (i * (W / 8))

/-- SrcRead(i) (20_memory.md R54): a Ws-bit value, and the access recorded. -/
def srcRead (src : Word) (W i : Nat) (b : Bus) : BitVec W × Bus :=
  (b.mem.readElem (elemAddr src i W) W, { b with log := b.log ++ [.srcRead (elemAddr src i W) (W / 8)] })

/-- DstRead(i) (20_memory.md R54): a Wd-bit value, and the access recorded. -/
def dstRead (dst : Word) (W i : Nat) (b : Bus) : BitVec W × Bus :=
  (b.mem.readElem (elemAddr dst i W) W, { b with log := b.log ++ [.dstRead (elemAddr dst i W) (W / 8)] })

/-- DstWrite(i, v) (20_memory.md R54): a Wd-bit value stored, and the access recorded. -/
def dstWrite (dst : Word) {W : Nat} (i : Nat) (v : BitVec W) (b : Bus) : Bus :=
  { mem := b.mem.writeElem (elemAddr dst i W) v,
    log := b.log ++ [.dstWrite (elemAddr dst i W) (W / 8) (v.setWidth 32)] }

/-- `for k in 0 .. n-1`, in increasing order, zero times when n = 0 (00_scope.md section 5). -/
def iterate {α : Type} (f : Nat → α → α) : Nat → α → α
  | 0, a => a
  | n + 1, a => f n (iterate f n a)

/-- Whether an address has memory behind it (20_memory.md R71). -/
def backed (holes : List Region) (a : Word) : Bool :=
  holes.all fun h => !(decide (h.base ≤ a.toNat) && decide (a.toNat < h.base + h.size))

/-- The first byte address of an access. -/
def BusAccess.addr : BusAccess → Word
  | .srcRead a _ => a
  | .dstRead a _ => a
  | .dstWrite a _ _ => a

/-- The number of bytes of an access. -/
def BusAccess.size : BusAccess → Nat
  | .srcRead _ n => n
  | .dstRead _ n => n
  | .dstWrite _ n _ => n

/-- Whether the platform completes an access: every byte of it has memory behind it (20_memory.md R71). -/
def completes (holes : List Region) (x : BusAccess) : Bool :=
  (List.range x.size).all fun j => backed holes (byteAddr x.addr j)

/-- `raise CfgErr(code)` (60_exceptions.md R212): STATUS records the code if CFGERR was 0, and nothing else of what a
command can change is changed. CMD already holds the word written (`State.runWord`). There is no trap entry and no
return from one (R218, R219): the host goes on with its next access. -/
def State.refuse (s : State) (e : CfgErr) : State :=
  { s with status := s.status.record e }

/-- A command that reached the memory: its writes and its accesses become part of the state, unless one of the
accesses found nothing behind its address, which leaves the command stuck (20_memory.md R71). -/
def State.finish (s : State) (run : Bus → Bus) : Host.Outcome State Fault Refusal :=
  if (run { mem := s.mem, log := [] }).log.all (completes s.holes) then
    .next { s with mem := (run { mem := s.mem, log := [] }).mem, trace := s.trace ++ (run { mem := s.mem, log := [] }).log }
  else .fault .accessNotCompleted

/-- A command after its configuration checks: refused with the first error (60_exceptions.md R212, R213), or accepted
with what the checks found. -/
def State.accept {α : Type} (s : State) (checks : Except CfgErr α)
    (run : α → Host.Outcome State Fault Refusal) : Host.Outcome State Fault Refusal :=
  match checks with
  | .error e => .next (s.refuse e)
  | .ok a => run a

/-- The registers of the block (10_state.md R21). -/
inductive Reg where
  | cmd | status | dstBase | dstCap | dstRows | dstX | dstY | srcBase | srcW | srcH | shift | mask | opa | opb | res
  | reserved
deriving DecidableEq, Repr

/-- The register at an offset from ENGINE_BASE, none where no register starts (10_state.md R21, R30, R31). -/
def regAt (offset : Word) : Option Reg :=
  match offset.toNat with
  | 0x00 => some .cmd
  | 0x04 => some .status
  | 0x08 => some .dstBase
  | 0x0C => some .dstCap
  | 0x10 => some .dstRows
  | 0x14 => some .dstX
  | 0x18 => some .dstY
  | 0x1C => some .srcBase
  | 0x20 => some .srcW
  | 0x24 => some .srcH
  | 0x28 => some .shift
  | 0x2C => some .mask
  | 0x30 => some .opa
  | 0x34 => some .opb
  | 0x38 => some .res
  | 0x3C => some .reserved
  | _ => none

/-- The offset of a register (10_state.md R21). -/
def regOffset : Reg → Word
  | .cmd => 0x00 | .status => 0x04 | .dstBase => 0x08 | .dstCap => 0x0C | .dstRows => 0x10 | .dstX => 0x14
  | .dstY => 0x18 | .srcBase => 0x1C | .srcW => 0x20 | .srcH => 0x24 | .shift => 0x28 | .mask => 0x2C
  | .opa => 0x30 | .opb => 0x34 | .res => 0x38 | .reserved => 0x3C

/-- The value of a register as the host reads it (10_state.md R21, R22, R25, R26, R28, R30). -/
def State.readReg (s : State) : Reg → Word
  | .cmd => s.cmd
  | .status => s.status.word
  | .dstBase => s.desc.dstBase
  | .dstCap => s.desc.dstCap
  | .dstRows => s.desc.dstRows
  | .dstX => s.desc.dstX
  | .dstY => s.desc.dstY
  | .srcBase => s.desc.srcBase
  | .srcW => s.desc.srcW
  | .srcH => s.desc.srcH
  | .shift => s.desc.shift
  | .mask => s.desc.mask
  | .opa => s.desc.opa
  | .opb => s.desc.opb
  | .res => s.res
  | .reserved => 0

/-- A host write to a register other than CMD: a descriptor holds the value (10_state.md R22), STATUS is write one to
clear (R27), RES and the reserved word ignore it (R28, R30). The write of CMD is `State.runWord`; here CMD only takes
the value. -/
def State.setReg (s : State) (r : Reg) (v : Word) : State :=
  match r with
  | .cmd => { s with cmd := v }
  | .status => { s with status := s.status.write v }
  | .dstBase => { s with desc := { s.desc with dstBase := v } }
  | .dstCap => { s with desc := { s.desc with dstCap := v } }
  | .dstRows => { s with desc := { s.desc with dstRows := v } }
  | .dstX => { s with desc := { s.desc with dstX := v } }
  | .dstY => { s with desc := { s.desc with dstY := v } }
  | .srcBase => { s with desc := { s.desc with srcBase := v } }
  | .srcW => { s with desc := { s.desc with srcW := v } }
  | .srcH => { s with desc := { s.desc with srcH := v } }
  | .shift => { s with desc := { s.desc with shift := v } }
  | .mask => { s with desc := { s.desc with mask := v } }
  | .opa => { s with desc := { s.desc with opa := v } }
  | .opb => { s with desc := { s.desc with opb := v } }
  | .res => s
  | .reserved => s

/-- The reset input: every register goes to its reset value and system memory is not touched (10_state.md R36,
70_reset_and_hazards.md R241). What the host will do next and the platform's holes are not the engine's. -/
def State.resetEngine (s : State) : State :=
  { State.reset with mem := s.mem, pending := s.pending, holes := s.holes }

/-- The memory after some accesses of a command are performed: each write stores its element, each read stores
nothing. -/
def replay (m : Memory) : List BusAccess → Memory
  | [] => m
  | .dstWrite a n v :: l => replay (m.writeBytes a v.toNat n) l
  | .srcRead _ _ :: l => replay m l
  | .dstRead _ _ :: l => replay m l

end Sys2Proof.Machine
end

