-- ==== Sys2Proof/Machine/Operands.lean ====
section
/-! DEFINITION. Sys2Proof/Machine/Operands.lean: the operand forms of the commands (30_encoding.md R84, R85), the
configuration checks on them (60_exceptions.md R211), and the geometry (00_scope.md R14: in the naturals). -/

namespace Sys2Proof.Machine

/-- The number of bits a width code stands for; none for the reserved code (30_encoding.md R84). -/
def widthBits : WidthCode → Option Nat
  | .w8 => some 8
  | .w16 => some 16
  | .w32 => some 32
  | .reserved => none

/-- The widths of RMW and PACK, as (Wd, Ws): defined (code 4) and Ws <= Wd (code 5) (30_encoding.md R84, R90). -/
def narrowWidths (wd ws : WidthCode) : Except CfgErr (Nat × Nat) :=
  match widthBits wd, widthBits ws with
  | some Wd, some Ws => if Ws ≤ Wd then .ok (Wd, Ws) else .error .widthRel
  | _, _ => .error .illWidth

/-- The one width of BLIT1D, BLIT2D and BLIT2DP: defined (code 4) and Ws = Wd (code 5) (30_encoding.md R84, R90). -/
def sameWidth (wd ws : WidthCode) : Except CfgErr Nat :=
  match widthBits wd, widthBits ws with
  | some Wd, some Ws => if Ws = Wd then .ok Wd else .error .widthRel
  | _, _ => .error .illWidth

/-- A base address is not a multiple of its element's size (20_memory.md R56; code 7). -/
def misalignedBases (d : Descriptors) (Wd Ws : Nat) : Bool :=
  d.dstBase.toNat % (Wd / 8) != 0 || d.srcBase.toNat % (Ws / 8) != 0

/-- The checks of BLIT1D in priority order (41_blit1d.md R135). -/
def blit1dChecks (d : Descriptors) (wd ws : WidthCode) : Except CfgErr Nat :=
  match sameWidth wd ws with
  | .error e => .error e
  | .ok W =>
    if misalignedBases d W W then .error .misaligned
    else if d.dstCap = 0 then .error .zeroCap
    else .ok W

/-- The checks of BLIT2D and BLIT2DP in priority order (42_blit2d.md R160). -/
def blit2dChecks (d : Descriptors) (wd ws : WidthCode) : Except CfgErr Nat :=
  match sameWidth wd ws with
  | .error e => .error e
  | .ok W =>
    if misalignedBases d W W then .error .misaligned
    else if d.dstCap = 0 ∨ d.dstRows = 0 then .error .zeroCap
    else .ok W

/-- The checks of PACK in priority order (43_pack.md R188): SHIFT, read unsigned, must be below Ws (code 6). -/
def packChecks (d : Descriptors) (wd ws : WidthCode) : Except CfgErr (Nat × Nat) :=
  match narrowWidths wd ws with
  | .error e => .error e
  | .ok (Wd, Ws) =>
    if Ws ≤ d.shift.toNat then .error .shiftRange
    else if misalignedBases d Wd Ws then .error .misaligned
    else .ok (Wd, Ws)

/-- SHIFT as the RMW command reads it: signed two's complement (30_encoding.md R85 (a)). -/
def signedShift (d : Descriptors) : Int :=
  if d.shift.toNat < 2 ^ 31 then (d.shift.toNat : Int) else (d.shift.toNat : Int) - 2 ^ 32

/-- An operand register truncated to an element's width: bits above it are ignored (30_encoding.md R85 (b)). -/
def truncated (v : Word) (W : Nat) : BitVec W := v.setWidth W

/-- ones(n) = 2^n - 1, as a W-bit mask (00_scope.md section 5). -/
def ones (W n : Nat) : BitVec W := BitVec.ofNat W (2 ^ n - 1)

/-- The clipped run length n of BLIT1D (41_blit1d.md R122): 0 when the start element is at or beyond the capacity,
else the run cut at bit cap*W exactly (R136; kept as one definition, 93_implementation_defined.md U10). -/
def clip1d (cap off len W : Nat) : Nat :=
  if cap ≤ off / W then 0 else min len ((cap - off / W) * W - off % W)

/-- One side of the clipping of a rectangle (42_blit2d.md R151): the part of `size` from `start` that lies below
`bound`. -/
def clipSide (start size bound : Nat) : Nat :=
  if start < bound then min size (bound - start) else 0

/-- The operands of BLIT2D and BLIT2DP after clipping (42_blit2d.md R150 to R153). -/
structure Rect where
  stride : Nat
  X : Nat
  Y : Nat
  wclip : Nat
  hclip : Nat
  pitch : Nat
deriving DecidableEq, Repr

/-- The clipped rectangle (42_blit2d.md R151) and the source pitch, ceil(w / W) of the unclipped width (R153). -/
def clip2d (d : Descriptors) (W : Nat) : Rect :=
  { stride := d.dstCap.toNat
    X := d.dstX.toNat
    Y := d.dstY.toNat
    wclip := clipSide d.dstX.toNat d.srcW.toNat (d.dstCap.toNat * W)
    hclip := clipSide d.dstY.toNat d.srcH.toNat d.dstRows.toNat
    pitch := (d.srcW.toNat + W - 1) / W }

/-- The shift of PACK's carry transform, base - (Ws - s) (43_pack.md R184). The spec's least certain value, kept as
one definition (92_eei_decisions.md D19, 93_implementation_defined.md U12). -/
def packCarryShift (base Ws s : Nat) : Int := (base : Int) - ((Ws : Int) - (s : Int))

end Sys2Proof.Machine
end

