-- ==== Sys2Proof/Machine/Transform.lean ====
section
/-! DEFINITION. Sys2Proof/Machine/Transform.lean: the masked read-modify-write transform (40_rmw.md R100 to R111) and
the per-bit table (R109, 42_blit2d.md R156). -/

namespace Sys2Proof.Machine

/-- The logical shift of 40_rmw.md R102 by a signed amount: left when positive, right when negative, all bits out when
the magnitude is the width or more (R111). -/
def shiftSource {W : Nat} (x : BitVec W) (sh : Int) : BitVec W :=
  if W ≤ sh.natAbs then 0#W
  else if 0 ≤ sh then x <<< sh.natAbs
  else x >>> sh.natAbs

/-- The combination under the mask (40_rmw.md R104 to R108): D the destination, Sh the shifted source, M the mask. -/
def combine {W : Nat} (op : Op) (D Sh M : BitVec W) : BitVec W :=
  match op with
  | .copy => (D &&& ~~~M) ||| (Sh &&& M)
  | .inv => (D &&& ~~~M) ||| (~~~Sh &&& M)
  | .and => D &&& (Sh ||| ~~~M)
  | .or => D ||| (Sh &&& M)
  | .xor => D ^^^ (Sh &&& M)

/-- rmw(D, S, M, sh, op): the source is zero-extended (40_rmw.md R101), then shifted (R102), then combined under the
mask (R103). -/
def rmw {Wd Ws : Nat} (op : Op) (D : BitVec Wd) (S : BitVec Ws) (M : BitVec Wd) (sh : Int) : BitVec Wd :=
  combine op D (shiftSource (S.setWidth Wd) sh) M

/-- t(op, d, s), the per-bit combination table (42_blit2d.md R156, 40_rmw.md R109). -/
def opBit (op : Op) (d s : Bool) : Bool :=
  match op with
  | .copy => s
  | .inv => !s
  | .and => d && s
  | .or => d || s
  | .xor => d != s

end Sys2Proof.Machine
end

