-- ==== Sys2Proof/Machine/Blit1d.lean ====
section
/-! DEFINITION. Sys2Proof/Machine/Blit1d.lean: the linear blit and the BLIT1D commands (41_blit1d.md R120 to R136). -/

namespace Sys2Proof.Machine

/-- One masked read-modify-write of destination element `de` with source element `se`: the source is read, then the
destination, then the destination is written (41_blit1d.md R130). -/
def rmwElem (op : Op) (W : Nat) (dst src : Word) (de se : Nat) (M : BitVec W) (sh : Int) (b : Bus) : Bus :=
  let s := srcRead src W se b
  let d := dstRead dst W de s.2
  dstWrite dst de (rmw op d.1 s.1 M sh) d.2

/-- One element of the bulk copy: written without being read (41_blit1d.md R126). -/
def copyElem (W : Nat) (dst src : Word) (de se : Nat) (b : Bus) : Bus :=
  let s := srcRead src W se b
  dstWrite dst de s.1 s.2

/-- A fully covered element of the aligned path (41_blit1d.md R126): bulk copy when op is COPY, else a masked
read-modify-write with the full mask. -/
def alignedElem (op : Op) (W : Nat) (dst src : Word) (de se : Nat) (b : Bus) : Bus :=
  match op with
  | .copy => copyElem W dst src de se b
  | _ => rmwElem op W dst src de se (BitVec.allOnes W) 0 b

/-- The aligned path (41_blit1d.md R126): the elements covered in full, then the tail if there is one. -/
def alignedPath (op : Op) (W : Nat) (dst src : Word) (dbase sbase n : Nat) (b : Bus) : Bus :=
  let bulk := iterate (fun k => alignedElem op W dst src (dbase + k) (sbase + k)) (n / W) b
  if n % W = 0 then bulk
  else rmwElem op W dst src (dbase + n / W) (sbase + n / W) (ones W (n % W)) 0 bulk

/-- The first destination element of the unaligned path (41_blit1d.md R127): the source element stays in the holding
register `prev`, the first component. -/
def firstElem (op : Op) (W : Nat) (dst src : Word) (de se p : Nat) (b : Bus) : BitVec W × Bus :=
  let prev := srcRead src W se b
  let d := dstRead dst W de prev.2
  (prev.1, dstWrite dst de (rmw op d.1 prev.1 (BitVec.allOnes W <<< p) (p : Int)) d.2)

/-- A later destination element of the unaligned path, covered in bits 0 to top-1 (41_blit1d.md R128, R129): its low
part from the held source element, its high part from the current one when there is a high part, one write. -/
def laterElem (op : Op) (W : Nat) (dst src : Word) (de se p top : Nat) (st : BitVec W × Bus) : BitVec W × Bus :=
  let d := dstRead dst W de st.2
  let low := rmw op d.1 st.1 (ones W (min p top)) (-((W : Int) - (p : Int)))
  if p < top then
    let cur := srcRead src W se d.2
    (cur.1, dstWrite dst de (rmw op low cur.1 (ones W top &&& ~~~(ones W p)) (p : Int)) cur.2)
  else (st.1, dstWrite dst de low d.2)

/-- The unaligned path (41_blit1d.md R127 to R130): `dbase` is the start element's index, p its first bit, and the run
ends q bits into the last element. -/
def unalignedPath (op : Op) (W : Nat) (dst src : Word) (dbase sbase p n : Nat) (b : Bus) : Bus :=
  let last := (p + n - 1) / W
  let q := p + n - last * W
  (iterate (fun j => laterElem op W dst src (dbase + (j + 1)) (sbase + (j + 1)) p (if j + 1 = last then q else W)) last
    (firstElem op W dst src dbase sbase p b)).2

/-- Blit1D(dbase, cap, off, sbase, len, op, W), the normative routine of 41_blit1d.md R130: nothing when the clipped
run is empty (R122, R123), else the sub-element, aligned or unaligned case, in that order (R124). -/
def blit1d (op : Op) (W : Nat) (dst src : Word) (dbase cap off sbase len : Nat) (b : Bus) : Bus :=
  let e0 := off / W
  let p := off % W
  let n := clip1d cap off len W
  if n = 0 then b
  else if p + n ≤ W then rmwElem op W dst src (dbase + e0) sbase (ones W n <<< p) (p : Int) b
  else if p = 0 then alignedPath op W dst src (dbase + e0) sbase n b
  else unalignedPath op W dst src (dbase + e0) sbase p n b

/-- The memory work of an accepted BLIT1D command (41_blit1d.md R120, R130). -/
def blit1dRun (op : Op) (W : Nat) (d : Descriptors) (b : Bus) : Bus :=
  blit1d op W d.dstBase d.srcBase 0 d.dstCap.toNat d.dstX.toNat 0 d.srcW.toNat b

/-- BLIT1D.op (41_blit1d.md R120, R135): writes no register (R134). -/
def blit1dCommand (op : Op) (wd ws : WidthCode) (s : State) : Host.Outcome State Fault Refusal :=
  s.accept (blit1dChecks s.desc wd ws) fun W => s.finish (blit1dRun op W s.desc)

/-- BLIT1D.COPY (41_blit1d.md R120). -/
def execBlit1dCopy (wd ws : WidthCode) (s : State) : Host.Outcome State Fault Refusal :=
  blit1dCommand .copy wd ws s

/-- BLIT1D.INV (41_blit1d.md R120). -/
def execBlit1dInv (wd ws : WidthCode) (s : State) : Host.Outcome State Fault Refusal :=
  blit1dCommand .inv wd ws s

/-- BLIT1D.AND (41_blit1d.md R120). -/
def execBlit1dAnd (wd ws : WidthCode) (s : State) : Host.Outcome State Fault Refusal :=
  blit1dCommand .and wd ws s

/-- BLIT1D.OR (41_blit1d.md R120). -/
def execBlit1dOr (wd ws : WidthCode) (s : State) : Host.Outcome State Fault Refusal :=
  blit1dCommand .or wd ws s

/-- BLIT1D.XOR (41_blit1d.md R120). -/
def execBlit1dXor (wd ws : WidthCode) (s : State) : Host.Outcome State Fault Refusal :=
  blit1dCommand .xor wd ws s

end Sys2Proof.Machine
end

