-- ==== Sys2Proof/Machine/Blit2d.lean ====
section
/-! DEFINITION. Sys2Proof/Machine/Blit2d.lean: the rectangular blits: BLIT2D, the element-wise realization, and BLIT2DP,
the per-pixel one (42_blit2d.md R150 to R161). -/

namespace Sys2Proof.Machine

/-- The memory work of an accepted BLIT2D command (42_blit2d.md R154): nothing when the clipped rectangle is empty
(R152), else the linear blit of each row, in increasing order. -/
def blit2dRun (op : Op) (W : Nat) (d : Descriptors) (b : Bus) : Bus :=
  let g := clip2d d W
  if g.wclip = 0 ∨ g.hclip = 0 then b
  else iterate (fun r => blit1d op W d.dstBase d.srcBase ((g.Y + r) * g.stride) g.stride g.X (r * g.pitch) g.wclip) g.hclip b

/-- One pixel of BLIT2DP (42_blit2d.md R155): source read, destination read, the per-bit table (R156), destination
write. -/
def pixelStep (op : Op) (W : Nat) (d : Descriptors) (g : Rect) (r x : Nat) (b : Bus) : Bus :=
  let de := (g.Y + r) * g.stride + (g.X + x) / W
  let db := (g.X + x) % W
  let s := srcRead d.srcBase W (r * g.pitch + x / W) b
  let v := dstRead d.dstBase W de s.2
  let newPixel := opBit op (v.1.getLsbD db) (s.1.getLsbD (x % W))
  dstWrite d.dstBase de ((v.1 &&& ~~~(1#W <<< db)) ||| ((BitVec.ofBool newPixel).setWidth W <<< db)) v.2

/-- The memory work of an accepted BLIT2DP command (42_blit2d.md R155): row by row, and within a row pixel by pixel. -/
def blit2dpRun (op : Op) (W : Nat) (d : Descriptors) (b : Bus) : Bus :=
  let g := clip2d d W
  if g.wclip = 0 ∨ g.hclip = 0 then b
  else iterate (fun r => iterate (fun x => pixelStep op W d g r x) g.wclip) g.hclip b

/-- BLIT2D.op (42_blit2d.md R154, R160): writes no register. -/
def blit2dCommand (op : Op) (wd ws : WidthCode) (s : State) : Host.Outcome State Fault Refusal :=
  s.accept (blit2dChecks s.desc wd ws) fun W => s.finish (blit2dRun op W s.desc)

/-- BLIT2DP.op (42_blit2d.md R155, R160): writes no register. -/
def blit2dpCommand (op : Op) (wd ws : WidthCode) (s : State) : Host.Outcome State Fault Refusal :=
  s.accept (blit2dChecks s.desc wd ws) fun W => s.finish (blit2dpRun op W s.desc)

/-- BLIT2D.COPY (42_blit2d.md R154). -/
def execBlit2dCopy (wd ws : WidthCode) (s : State) : Host.Outcome State Fault Refusal :=
  blit2dCommand .copy wd ws s

/-- BLIT2D.INV (42_blit2d.md R154). -/
def execBlit2dInv (wd ws : WidthCode) (s : State) : Host.Outcome State Fault Refusal :=
  blit2dCommand .inv wd ws s

/-- BLIT2D.AND (42_blit2d.md R154). -/
def execBlit2dAnd (wd ws : WidthCode) (s : State) : Host.Outcome State Fault Refusal :=
  blit2dCommand .and wd ws s

/-- BLIT2D.OR (42_blit2d.md R154). -/
def execBlit2dOr (wd ws : WidthCode) (s : State) : Host.Outcome State Fault Refusal :=
  blit2dCommand .or wd ws s

/-- BLIT2D.XOR (42_blit2d.md R154). -/
def execBlit2dXor (wd ws : WidthCode) (s : State) : Host.Outcome State Fault Refusal :=
  blit2dCommand .xor wd ws s

/-- BLIT2DP.COPY (42_blit2d.md R155). -/
def execBlit2dpCopy (wd ws : WidthCode) (s : State) : Host.Outcome State Fault Refusal :=
  blit2dpCommand .copy wd ws s

/-- BLIT2DP.INV (42_blit2d.md R155). -/
def execBlit2dpInv (wd ws : WidthCode) (s : State) : Host.Outcome State Fault Refusal :=
  blit2dpCommand .inv wd ws s

/-- BLIT2DP.AND (42_blit2d.md R155). -/
def execBlit2dpAnd (wd ws : WidthCode) (s : State) : Host.Outcome State Fault Refusal :=
  blit2dpCommand .and wd ws s

/-- BLIT2DP.OR (42_blit2d.md R155). -/
def execBlit2dpOr (wd ws : WidthCode) (s : State) : Host.Outcome State Fault Refusal :=
  blit2dpCommand .or wd ws s

/-- BLIT2DP.XOR (42_blit2d.md R155). -/
def execBlit2dpXor (wd ws : WidthCode) (s : State) : Host.Outcome State Fault Refusal :=
  blit2dpCommand .xor wd ws s

end Sys2Proof.Machine
end

