-- ==== Sys2Proof/Machine/Control.lean ====
section
/-! DEFINITION. Sys2Proof/Machine/Control.lean: NOP (44_control.md R200). -/

namespace Sys2Proof.Machine

/-- NOP: reads no descriptor, accesses no memory, writes no register (44_control.md R200); its OP, WD and WS fields
are ignored. -/
def execNop (_op : BitVec 3) (_wd _ws : WidthCode) (s : State) : Host.Outcome State Fault Refusal :=
  .next s

end Sys2Proof.Machine
end

