-- ==== Sys2Proof/Machine/Pack.lean ====
section
/-! DEFINITION. Sys2Proof/Machine/Pack.lean: the element pack (43_pack.md R180 to R191). -/

namespace Sys2Proof.Machine

/-- The values PACK holds between slots: the destination element, the current source element, and the bus. -/
structure PackHeld (Wd Ws : Nat) where
  d : BitVec Wd
  cur : BitVec Ws
  bus : Bus

/-- Slot k of N (43_pack.md R186): the main transform (R183), then the carry transform from the next source element
when s is not 0 (R184), else the next source element is read if another slot follows. -/
def packSlot (op : Op) (Wd Ws : Nat) (src : Word) (s N k : Nat) (h : PackHeld Wd Ws) : PackHeld Wd Ws :=
  let base := Wd - (k + 1) * Ws
  let main := rmw op h.d h.cur (((BitVec.allOnes Ws <<< s).setWidth Wd) <<< base) ((base + s : Nat) : Int)
  if s ≠ 0 then
    let nxt := srcRead src Ws (k + 1) h.bus
    { d := rmw op main nxt.1 (ones Wd s <<< base) (packCarryShift base Ws s), cur := nxt.1, bus := nxt.2 }
  else if k + 1 ≤ N - 1 then
    let nxt := srcRead src Ws (k + 1) h.bus
    { d := main, cur := nxt.1, bus := nxt.2 }
  else { h with d := main }

/-- The memory work of an accepted PACK command (43_pack.md R186): the destination is read once, first, and written
once, last; slots from the most significant down (R182, R190). -/
def packRun (op : Op) (Wd Ws : Nat) (d : Descriptors) (b : Bus) : Bus :=
  let s := d.shift.toNat
  let N := Wd / Ws
  let held := dstRead d.dstBase Wd 0 b
  let cur := srcRead d.srcBase Ws 0 held.2
  let h := iterate (packSlot op Wd Ws d.srcBase s N) N { d := held.1, cur := cur.1, bus := cur.2 }
  dstWrite d.dstBase 0 h.d h.bus

/-- PACK.op (43_pack.md R180, R188): updates one destination element and writes no register. -/
def packCommand (op : Op) (wd ws : WidthCode) (s : State) : Host.Outcome State Fault Refusal :=
  s.accept (packChecks s.desc wd ws) fun W => s.finish (packRun op W.1 W.2 s.desc)

/-- PACK.COPY (43_pack.md R180). -/
def execPackCopy (wd ws : WidthCode) (s : State) : Host.Outcome State Fault Refusal :=
  packCommand .copy wd ws s

/-- PACK.INV (43_pack.md R180). -/
def execPackInv (wd ws : WidthCode) (s : State) : Host.Outcome State Fault Refusal :=
  packCommand .inv wd ws s

/-- PACK.AND (43_pack.md R180). -/
def execPackAnd (wd ws : WidthCode) (s : State) : Host.Outcome State Fault Refusal :=
  packCommand .and wd ws s

/-- PACK.OR (43_pack.md R180). -/
def execPackOr (wd ws : WidthCode) (s : State) : Host.Outcome State Fault Refusal :=
  packCommand .or wd ws s

/-- PACK.XOR (43_pack.md R180). -/
def execPackXor (wd ws : WidthCode) (s : State) : Host.Outcome State Fault Refusal :=
  packCommand .xor wd ws s

end Sys2Proof.Machine
end

