-- ==== Sys2Proof/Machine/RmwCommand.lean ====
section
/-! DEFINITION. Sys2Proof/Machine/RmwCommand.lean: the RMW commands (40_rmw.md R112). -/

namespace Sys2Proof.Machine

/-- The result of RMW.op for element widths Wd and Ws: the transform on OPA, OPB and MASK truncated to their widths and
SHIFT read signed, zero-extended to 32 bits (40_rmw.md R112). -/
def rmwResult (op : Op) (Wd Ws : Nat) (d : Descriptors) : Word :=
  (rmw op (truncated d.opa Wd) (truncated d.opb Ws) (truncated d.mask Wd) (signedShift d)).setWidth 32

/-- RMW.op (40_rmw.md R112): writes RES, accesses no memory; refused with code 4 or 5 it leaves RES. -/
def rmwCommand (op : Op) (wd ws : WidthCode) (s : State) : Host.Outcome State Fault Refusal :=
  s.accept (narrowWidths wd ws) fun W => .next { s with res := rmwResult op W.1 W.2 s.desc }

/-- RMW.COPY (40_rmw.md R112). -/
def execRmwCopy (wd ws : WidthCode) (s : State) : Host.Outcome State Fault Refusal :=
  rmwCommand .copy wd ws s

/-- RMW.INV (40_rmw.md R112). -/
def execRmwInv (wd ws : WidthCode) (s : State) : Host.Outcome State Fault Refusal :=
  rmwCommand .inv wd ws s

/-- RMW.AND (40_rmw.md R112). -/
def execRmwAnd (wd ws : WidthCode) (s : State) : Host.Outcome State Fault Refusal :=
  rmwCommand .and wd ws s

/-- RMW.OR (40_rmw.md R112). -/
def execRmwOr (wd ws : WidthCode) (s : State) : Host.Outcome State Fault Refusal :=
  rmwCommand .or wd ws s

/-- RMW.XOR (40_rmw.md R112). -/
def execRmwXor (wd ws : WidthCode) (s : State) : Host.Outcome State Fault Refusal :=
  rmwCommand .xor wd ws s

end Sys2Proof.Machine
end

