-- ==== Sys2Proof/Machine/Dispatch.lean ====
section
/-! DEFINITION. Sys2Proof/Machine/Dispatch.lean: each command to its meaning, one arm a constructor. -/

namespace Sys2Proof.Machine

def exec (i : Instr) (s : State) : Host.Outcome State Fault Refusal :=
  match i with
  | .nop op wd ws => Sys2Proof.Machine.execNop op wd ws s
  | .rmwCopy wd ws => Sys2Proof.Machine.execRmwCopy wd ws s
  | .rmwInv wd ws => Sys2Proof.Machine.execRmwInv wd ws s
  | .rmwAnd wd ws => Sys2Proof.Machine.execRmwAnd wd ws s
  | .rmwOr wd ws => Sys2Proof.Machine.execRmwOr wd ws s
  | .rmwXor wd ws => Sys2Proof.Machine.execRmwXor wd ws s
  | .blit1dCopy wd ws => Sys2Proof.Machine.execBlit1dCopy wd ws s
  | .blit1dInv wd ws => Sys2Proof.Machine.execBlit1dInv wd ws s
  | .blit1dAnd wd ws => Sys2Proof.Machine.execBlit1dAnd wd ws s
  | .blit1dOr wd ws => Sys2Proof.Machine.execBlit1dOr wd ws s
  | .blit1dXor wd ws => Sys2Proof.Machine.execBlit1dXor wd ws s
  | .blit2dCopy wd ws => Sys2Proof.Machine.execBlit2dCopy wd ws s
  | .blit2dInv wd ws => Sys2Proof.Machine.execBlit2dInv wd ws s
  | .blit2dAnd wd ws => Sys2Proof.Machine.execBlit2dAnd wd ws s
  | .blit2dOr wd ws => Sys2Proof.Machine.execBlit2dOr wd ws s
  | .blit2dXor wd ws => Sys2Proof.Machine.execBlit2dXor wd ws s
  | .blit2dpCopy wd ws => Sys2Proof.Machine.execBlit2dpCopy wd ws s
  | .blit2dpInv wd ws => Sys2Proof.Machine.execBlit2dpInv wd ws s
  | .blit2dpAnd wd ws => Sys2Proof.Machine.execBlit2dpAnd wd ws s
  | .blit2dpOr wd ws => Sys2Proof.Machine.execBlit2dpOr wd ws s
  | .blit2dpXor wd ws => Sys2Proof.Machine.execBlit2dpXor wd ws s
  | .packCopy wd ws => Sys2Proof.Machine.execPackCopy wd ws s
  | .packInv wd ws => Sys2Proof.Machine.execPackInv wd ws s
  | .packAnd wd ws => Sys2Proof.Machine.execPackAnd wd ws s
  | .packOr wd ws => Sys2Proof.Machine.execPackOr wd ws s
  | .packXor wd ws => Sys2Proof.Machine.execPackXor wd ws s

end Sys2Proof.Machine
end

