-- ==== Sys2Proof/Machine/Port.lean ====
section
/-! DEFINITION. Sys2Proof/Machine/Port.lean: the register port and what else the host does to the engine
(10_state.md R25 to R31, 70_reset_and_hazards.md R240 to R242). -/

namespace Sys2Proof.Machine

/-- The offset of a bus address from ENGINE_BASE (10_state.md R20, 20_memory.md R62). -/
def busOffset (addr : Word) : Word := addr - Config.engineBase

/-- The host's write of a 32-bit word at an absolute bus address, as a host event. -/
def HostEvent.wordWriteAt (addr value : Word) : HostEvent := .regWrite (busOffset addr) 4 value

/-- A write of v to CMD (10_state.md R25): CMD holds v whatever it is, v is decoded, and the command is refused
(30_encoding.md R90, 60_exceptions.md R212) or run to completion. -/
def State.runWord (s : State) (v : Word) : Host.Outcome State Fault Refusal :=
  match decode v with
  | .error e => .next ({ s with cmd := v }.refuse e)
  | .ok i => exec i { s with cmd := v }

/-- A write of v to a register (10_state.md R21): CMD starts a command, the others only take or ignore the value. -/
def State.writeReg (s : State) (r : Reg) (v : Word) : Host.Outcome State Fault Refusal :=
  match r with
  | .cmd => s.runWord v
  | _ => .next (s.setReg r v)

/-- The register an access addresses: aligned 32-bit words of the block only (10_state.md R30, R31). -/
def portReg (offset : Word) (size : Nat) : Option Reg :=
  if size = 4 then regAt offset else none

/-- Reset after the first k memory accesses of the command v (70_reset_and_hazards.md R242): those accesses stay
performed, the rest are never made, and the registers go to their reset values. A refused command and one with no
more than k accesses has ended before the reset. The accesses are those of the command on a memory without holes:
which addresses a command uses does not depend on them (44_control.md R203). -/
def State.resetDuring (s : State) (v : Word) (k : Nat) : Host.Outcome State Fault Refusal :=
  match { s with holes := [], trace := [] }.runWord v with
  | .next t =>
    if (t.trace.take k).all (completes s.holes) then
      .next { s.resetEngine with mem := replay s.mem (t.trace.take k), trace := t.trace.take k }
    else .fault .accessNotCompleted
  | .fault r => .fault r
  | .refused r => .refused r

/-- The host's own access to a byte of system memory, which must have memory behind it (20_memory.md R71). -/
def State.hostMemory (s : State) (addr : Word) (t : State) : Host.Outcome State Fault Refusal :=
  if backed s.holes addr then .next t else .fault .accessNotCompleted

/-- One host event served. -/
def State.serve (s : State) : HostEvent → Host.Outcome State Fault Refusal
  | .regWrite offset size v =>
    match portReg offset size with
    | some r => s.writeReg r v
    | none => .refused .registerAccess
  | .regRead offset size =>
    match portReg offset size with
    | some r => .next { s with reply := some (s.readReg r) }
    | none => .refused .registerAccess
  | .reset => .next s.resetEngine
  | .cmdThenReset v k => s.resetDuring v k
  | .memStore addr v => s.hostMemory addr { s with mem := s.mem.write addr.toNat v }
  | .memLoad addr => s.hostMemory addr { s with reply := some ((s.mem.read addr.toNat).setWidth 32) }

/-- The state in which the next host event is served: it is taken off the list, and nothing has been returned and no
access made for it yet. -/
def State.take (s : State) (rest : List HostEvent) : State :=
  { s with pending := rest, reply := none, trace := [] }

end Sys2Proof.Machine
end

