-- ==== Sys2Proof/Machine/Step.lean ====
section
/-! DEFINITION. Sys2Proof/Machine/Step.lean: one step of the machine, and where its next command stands. -/

namespace Sys2Proof.Machine

/-- One step: the oldest host event is served, a command from its CMD write to its last memory access
(10_state.md R25, 70_reset_and_hazards.md R250). With no event pending the engine is idle: it "does nothing" until the
host writes CMD (R241). DEDUCED (log entry 1). -/
def step (s : State) : Host.Outcome State Fault Refusal :=
  match s.pending with
  | [] => .next s
  | e :: rest => (s.take rest).serve e

/-- s with the write of a command word to CMD as the very next host event: the engine fetches no instruction
(10_state.md R32), the host's next CMD write is the next command. Bits of the word from nbits up are 0. -/
def State.withFetchWord (s : State) (nbits w : Nat) : State :=
  { s with pending := .regWrite 0 4 (BitVec.ofNat 32 (w % 2 ^ nbits)) :: s.pending }

end Sys2Proof.Machine
end

