-- ==== Sys2Proof/Machine/Program.lean ====
section
/-! DEFINITION. Sys2Proof/Machine/Program.lean: the notation of host programs (30_encoding.md R91) and the
pseudo-instructions with their expansions (R92, 44_control.md R201), as host events. -/

namespace Sys2Proof.Machine

/-- `WR NAME, value` (30_encoding.md R91). -/
def wr (r : Reg) (v : Word) : HostEvent := .regWrite (regOffset r) 4 v

/-- `RD NAME` (30_encoding.md R91). -/
def rd (r : Reg) : HostEvent := .regRead (regOffset r) 4

/-- `GO mnemonic`: the command's word written to CMD (30_encoding.md R91). -/
def go (i : Instr) : HostEvent := wr .cmd (encode i)

/-- CLRERR: `WR STATUS, 0x00000001` (30_encoding.md R92, 44_control.md R201). -/
def clrErr : HostEvent := wr .status 1

/-- `BLIT1D dest, cap, off, src, len` before a GO (30_encoding.md R92). -/
def setupBlit1d (dest cap off src len : Word) : List HostEvent :=
  [wr .dstBase dest, wr .dstCap cap, wr .dstX off, wr .srcBase src, wr .srcW len]

/-- `BLIT2D dest, stride, rows, x, y, src, w, h` before a GO (30_encoding.md R92). -/
def setupBlit2d (dest stride rows x y src w h : Word) : List HostEvent :=
  [wr .dstBase dest, wr .dstCap stride, wr .dstRows rows, wr .dstX x, wr .dstY y, wr .srcBase src, wr .srcW w,
    wr .srcH h]

/-- `PACK dest, src, shift` before a GO (30_encoding.md R92). -/
def setupPack (dest src shift : Word) : List HostEvent :=
  [wr .dstBase dest, wr .srcBase src, wr .shift shift]

/-- `RMW d, s, m, sh` before a GO (30_encoding.md R92). -/
def setupRmw (d s m sh : Word) : List HostEvent :=
  [wr .opa d, wr .opb s, wr .mask m, wr .shift sh]

end Sys2Proof.Machine
end

