-- ==== Sys2Proof/Safety.lean ====
section
/-! DEFINITION. Sys2Proof/Safety.lean: the terms claims are stated in: the invariant of the machine, the bits of a
buffer, and the duties of the host (70_reset_and_hazards.md R244, R246). -/

namespace Sys2Proof.Machine

/-- STATUS holds what the engine can leave in it: ERRCODE is 0 when CFGERR is 0 (10_state.md R26) and one of the codes
1 to 8 when CFGERR is 1 (60_exceptions.md R211: 9 to 15 are never generated). -/
abbrev Status.legal (st : Status) : Prop :=
  if st.cfgErr = true then 1 ≤ st.errCode.toNat ∧ st.errCode.toNat ≤ 8 else st.errCode = 0

/-- An access of one whole element of 8, 16 or 32 bits, naturally aligned (20_memory.md R51, R56). -/
abbrev BusAccess.natural (x : BusAccess) : Prop :=
  (x.size = 1 ∨ x.size = 2 ∨ x.size = 4) ∧ x.addr.toNat % x.size = 0

/-- What every step keeps: memory in its canonical form, a legal STATUS, and every recorded access a naturally aligned
element. -/
abbrev State.inv (s : State) : Prop :=
  s.mem.wf ∧ s.status.legal ∧ ∀ x ∈ s.trace, x.natural

/-- Bit i of a row of a bit buffer: bit (i mod W) of element row + (i div W) (00_scope.md R13, 20_memory.md R55). -/
def rowBit (m : Memory) (base : Word) (W row i : Nat) : Bool :=
  (m.readElem (elemAddr base (row + i / W) W) W).getLsbD (i % W)

/-- Where that bit lies in memory: the byte's address, and the bit of the byte (20_memory.md R53). -/
def bitHome (base : Word) (W row i : Nat) : Word × Nat :=
  (byteAddr (elemAddr base (row + i / W) W) (i % W / 8), i % 8)

/-- Bit k of the byte at an address. -/
def memBit (m : Memory) (a : Word) (k : Nat) : Bool :=
  (m.read a.toNat).getLsbD k

/-- Two stretches of n and m bytes with no byte in common. -/
abbrev apart (a : Word) (n : Nat) (b : Word) (m : Nat) : Prop :=
  ∀ j < n, ∀ k < m, byteAddr a j ≠ byteAddr b k

/-- The clipped run length of BLIT1D for these descriptors (41_blit1d.md R122). -/
def runLength (d : Descriptors) (W : Nat) : Nat :=
  clip1d d.dstCap.toNat d.dstX.toNat d.srcW.toNat W

/-- ceil(n / W) (00_scope.md R14). -/
def ceilDiv (n W : Nat) : Nat := (n + W - 1) / W

/-- Non-overlap for BLIT1D (20_memory.md R67, 70_reset_and_hazards.md R244): no source element it reads (R59: elements
0 to ceil(n/W) - 1) shares a byte with a destination element it accesses (41_blit1d.md R132: off div W to
(off + n - 1) div W). -/
abbrev blit1dApart (d : Descriptors) (W : Nat) : Prop :=
  ∀ i < ceilDiv (runLength d W) W, ∀ e < ceilDiv (d.dstX.toNat + runLength d W) W, d.dstX.toNat / W ≤ e →
    apart (elemAddr d.srcBase i W) (W / 8) (elemAddr d.dstBase e W) (W / 8)

/-- Non-overlap for BLIT2D and BLIT2DP (20_memory.md R67, 70_reset_and_hazards.md R244), over the elements of
42_blit2d.md R159. -/
abbrev blit2dApart (d : Descriptors) (W : Nat) : Prop :=
  ∀ r < (clip2d d W).hclip, ∀ i < ceilDiv (clip2d d W).wclip W,
    ∀ r' < (clip2d d W).hclip, ∀ e < ceilDiv (d.dstX.toNat + (clip2d d W).wclip) W, d.dstX.toNat / W ≤ e →
      apart (elemAddr d.srcBase (r * (clip2d d W).pitch + i) W) (W / 8)
        (elemAddr d.dstBase ((d.dstY.toNat + r') * d.dstCap.toNat + e) W) (W / 8)

/-- The destination really has room for DST_CAP * DST_ROWS elements (70_reset_and_hazards.md R246): they fit into the
2^32 bytes there are. -/
abbrev rectFits (d : Descriptors) (W : Nat) : Prop :=
  d.dstCap.toNat * d.dstRows.toNat * (W / 8) ≤ 2 ^ 32

/-- The number of source elements PACK reads: N, and one more when SHIFT is not 0 (43_pack.md R187). -/
def packReads (d : Descriptors) (Wd Ws : Nat) : Nat :=
  if d.shift = 0 then Wd / Ws else Wd / Ws + 1

/-- Non-overlap for PACK (20_memory.md R67, 70_reset_and_hazards.md R244). -/
abbrev packApart (d : Descriptors) (Wd Ws : Nat) : Prop :=
  ∀ i < packReads d Wd Ws, apart (elemAddr d.srcBase i Ws) (Ws / 8) (elemAddr d.dstBase 0 Wd) (Wd / 8)

/-- A BLIT1D command is accepted (41_blit1d.md R135, 60_exceptions.md R211): one defined width, both bases multiples of
the element's size, a capacity that is not 0. -/
abbrev blitReady (d : Descriptors) (wd ws : WidthCode) (W : Nat) : Prop :=
  widthBits wd = some W ∧ ws = wd ∧ d.dstBase.toNat % (W / 8) = 0 ∧ d.srcBase.toNat % (W / 8) = 0 ∧ d.dstCap ≠ 0

/-- A BLIT2D or BLIT2DP command is accepted (42_blit2d.md R160): as BLIT1D, and DST_ROWS is not 0. -/
abbrev rectReady (d : Descriptors) (wd ws : WidthCode) (W : Nat) : Prop :=
  blitReady d wd ws W ∧ d.dstRows ≠ 0

/-- A PACK command is accepted (43_pack.md R188): Ws <= Wd, SHIFT below Ws, both bases aligned. -/
abbrev packReady (d : Descriptors) (wd ws : WidthCode) (Wd Ws : Nat) : Prop :=
  widthBits wd = some Wd ∧ widthBits ws = some Ws ∧ Ws ≤ Wd ∧ d.shift.toNat < Ws ∧
    d.dstBase.toNat % (Wd / 8) = 0 ∧ d.srcBase.toNat % (Ws / 8) = 0

/-- What an access is, without the value written: the form in which 41_blit1d.md R132, 42_blit2d.md R159 and
43_pack.md R187 list accesses. -/
def BusAccess.shape : BusAccess → BusAccess
  | .srcRead a n => .srcRead a n
  | .dstRead a n => .dstRead a n
  | .dstWrite a n _ => .dstWrite a n 0

/-- The accesses of Blit1D with clipped run length n from bit p of destination element `de` and source element `se`
(41_blit1d.md R132, in the order of R130): the sub-element case; the aligned path, whose covered elements are read
except under COPY; the unaligned path, where source element j + 1 is read only if the run reaches it. -/
def rowAccesses (op : Op) (W : Nat) (dst src : Word) (de se p n : Nat) : List BusAccess :=
  let sr := fun i => BusAccess.srcRead (elemAddr src (se + i) W) (W / 8)
  let dr := fun i => BusAccess.dstRead (elemAddr dst (de + i) W) (W / 8)
  let dw := fun i => BusAccess.dstWrite (elemAddr dst (de + i) W) (W / 8) 0
  if n = 0 then []
  else if p + n ≤ W then [sr 0, dr 0, dw 0]
  else if p = 0 then
    (List.range (n / W)).flatMap (fun k => if op = .copy then [sr k, dw k] else [sr k, dr k, dw k]) ++
      (if n % W = 0 then [] else [sr (n / W), dr (n / W), dw (n / W)])
  else
    [sr 0, dr 0, dw 0] ++
      (List.range ((p + n - 1) / W)).flatMap fun j =>
        if (j + 1) * W < n then [dr (j + 1), sr (j + 1), dw (j + 1)] else [dr (j + 1), dw (j + 1)]

/-- The accesses of an accepted BLIT1D command (41_blit1d.md R132). -/
def blit1dAccesses (op : Op) (W : Nat) (d : Descriptors) : List BusAccess :=
  rowAccesses op W d.dstBase d.srcBase (d.dstX.toNat / W) 0 (d.dstX.toNat % W) (runLength d W)

/-- The accesses of an accepted BLIT2D command: those of each performed row, in order (42_blit2d.md R159). -/
def blit2dAccesses (op : Op) (W : Nat) (d : Descriptors) : List BusAccess :=
  (List.range (clip2d d W).hclip).flatMap fun r =>
    rowAccesses op W d.dstBase d.srcBase ((d.dstY.toNat + r) * d.dstCap.toNat + d.dstX.toNat / W) (r * (clip2d d W).pitch)
      (d.dstX.toNat % W) (clip2d d W).wclip

/-- The accesses of an accepted BLIT2DP command: three for each pixel, in order (42_blit2d.md R155, R159). -/
def blit2dpAccesses (W : Nat) (d : Descriptors) : List BusAccess :=
  (List.range (clip2d d W).hclip).flatMap fun r =>
    (List.range (clip2d d W).wclip).flatMap fun x =>
      let da := elemAddr d.dstBase ((d.dstY.toNat + r) * d.dstCap.toNat + (d.dstX.toNat + x) / W) W
      [.srcRead (elemAddr d.srcBase (r * (clip2d d W).pitch + x / W) W) (W / 8), .dstRead da (W / 8),
        .dstWrite da (W / 8) 0]

/-- The accesses of an accepted PACK command (43_pack.md R187). -/
def packAccesses (Wd Ws : Nat) (d : Descriptors) : List BusAccess :=
  [.dstRead (elemAddr d.dstBase 0 Wd) (Wd / 8)] ++
    (List.range (packReads d Wd Ws)).map (fun i => .srcRead (elemAddr d.srcBase i Ws) (Ws / 8)) ++
    [.dstWrite (elemAddr d.dstBase 0 Wd) (Wd / 8) 0]

/-- The platform completes every access of a list (20_memory.md R71). -/
abbrev allComplete (holes : List Region) (l : List BusAccess) : Prop :=
  ∀ x ∈ l, completes holes x = true

/-- Stream position q of PACK's source, most significant bit first: bit Ws - 1 - i of source element j for
q = j*Ws + i (43_pack.md R189). -/
def streamBit (m : Memory) (src : Word) (Ws q : Nat) : Bool :=
  (m.readElem (elemAddr src (q / Ws) Ws) Ws).getLsbD (Ws - 1 - q % Ws)

/-- The configuration error of a word written to CMD under these descriptors, by the table of 60_exceptions.md R211,
the lowest code first (R213); 0 when the command is accepted. Written over numbers, apart from the decoder. -/
def refusalCode (w : Word) (d : Descriptors) : Nat :=
  let func := w.toNat % 16
  let op := w.toNat / 16 % 8
  let wd := w.toNat / 256 % 4
  let ws := w.toNat / 1024 % 4
  if 4096 ≤ w.toNat ∨ w.toNat / 128 % 2 = 1 then 1
  else if 6 ≤ func then 2
  else if func = 0 then 0
  else if 5 ≤ op then 3
  else if wd = 3 ∨ ws = 3 then 4
  else if ((func = 1 ∨ func = 5) ∧ wd < ws) ∨ ((func = 2 ∨ func = 3 ∨ func = 4) ∧ ws ≠ wd) then 5
  else if func = 5 ∧ 8 * 2 ^ ws ≤ d.shift.toNat then 6
  else if func ≠ 1 ∧ (d.dstBase.toNat % 2 ^ wd ≠ 0 ∨ d.srcBase.toNat % 2 ^ ws ≠ 0) then 7
  else if ((func = 2 ∨ func = 3 ∨ func = 4) ∧ d.dstCap = 0) ∨ ((func = 3 ∨ func = 4) ∧ d.dstRows = 0) then 8
  else 0

/-- The descriptor registers BLIT2D and BLIT2DP read (10_state.md R23). -/
def rectRegs : List Reg := [.dstBase, .dstCap, .dstRows, .dstX, .dstY, .srcBase, .srcW, .srcH]

/-- Which descriptor registers a command reads (10_state.md R23). -/
def readsRegs : Instr → List Reg
  | .nop _ _ _ => []
  | .rmwCopy _ _ | .rmwInv _ _ | .rmwAnd _ _ | .rmwOr _ _ | .rmwXor _ _ => [.shift, .mask, .opa, .opb]
  | .blit1dCopy _ _ | .blit1dInv _ _ | .blit1dAnd _ _ | .blit1dOr _ _ | .blit1dXor _ _ =>
    [.dstBase, .dstCap, .dstX, .srcBase, .srcW]
  | .blit2dCopy _ _ | .blit2dInv _ _ | .blit2dAnd _ _ | .blit2dOr _ _ | .blit2dXor _ _ => rectRegs
  | .blit2dpCopy _ _ | .blit2dpInv _ _ | .blit2dpAnd _ _ | .blit2dpOr _ _ | .blit2dpXor _ _ => rectRegs
  | .packCopy _ _ | .packInv _ _ | .packAnd _ _ | .packOr _ _ | .packXor _ _ => [.dstBase, .srcBase, .shift]

end Sys2Proof.Machine
end

