-- ==== Sys2Proof/WellFormed.lean ====
section
/-! DEFINITION. Sys2Proof/WellFormed.lean: which commands have a legal pair of element widths (30_encoding.md R84).
An ill-formed command is still encodable and still decoded: the engine refuses it with code 4 or 5 (R87). -/

namespace Sys2Proof

/-- Both width codes stand for a width (30_encoding.md R84: code 3 is reserved). -/
def widthsDefined (wd ws : WidthCode) : Bool :=
  wd != .reserved && ws != .reserved

/-- BLIT1D, BLIT2D and BLIT2DP "need Ws = Wd" (30_encoding.md R84). -/
def equalWidths (wd ws : WidthCode) : Bool :=
  wd == ws

/-- RMW and PACK "need Ws <= Wd" (30_encoding.md R84), pair by pair as 43_pack.md R181 lists them. -/
def narrowSource (wd ws : WidthCode) : Bool :=
  match wd, ws with
  | .w8, .w8 | .w16, .w8 | .w16, .w16 | .w32, .w8 | .w32, .w16 | .w32, .w32 => true
  | _, _ => false

/-- A command is well formed when its widths are a legal combination (30_encoding.md R84); NOP ignores its fields. -/
def Instr.wellFormed : Instr → Bool
  | .nop _ _ _ => true
  | .rmwCopy wd ws | .rmwInv wd ws | .rmwAnd wd ws | .rmwOr wd ws | .rmwXor wd ws =>
    widthsDefined wd ws && narrowSource wd ws
  | .blit1dCopy wd ws | .blit1dInv wd ws | .blit1dAnd wd ws | .blit1dOr wd ws | .blit1dXor wd ws =>
    widthsDefined wd ws && equalWidths wd ws
  | .blit2dCopy wd ws | .blit2dInv wd ws | .blit2dAnd wd ws | .blit2dOr wd ws | .blit2dXor wd ws =>
    widthsDefined wd ws && equalWidths wd ws
  | .blit2dpCopy wd ws | .blit2dpInv wd ws | .blit2dpAnd wd ws | .blit2dpOr wd ws | .blit2dpXor wd ws =>
    widthsDefined wd ws && equalWidths wd ws
  | .packCopy wd ws | .packInv wd ws | .packAnd wd ws | .packOr wd ws | .packXor wd ws =>
    widthsDefined wd ws && narrowSource wd ws

end Sys2Proof
end

