-- ==== Sys2Proof/Certificates/Slice0/Obligations.lean ====
section
/-! DEFINITION. Sys2Proof/Certificates/Slice0/Obligations.lean: the statements for the provers. Helper terms are those of
Sys2Proof/Safety.lean. -/

open Sys2Proof Sys2Proof.Machine

/-! ### Encoding -/

/-- Decoding the word of any command gives the command back, every field at every value (30_encoding.md R81, R86). -/
def Obligations.DecodeOfEncode : Prop :=
  ∀ i : Instr, decode (encode i) = .ok i

/-- A word that decodes is the word of the command it decodes to: each word has one meaning (30_encoding.md R81, R88). -/
def Obligations.EncodeOfDecode : Prop :=
  ∀ (w : Word) (i : Instr), decode w = .ok i → encode i = w

/-- The decoder accepts exactly the defined commands of 30_encoding.md R86. -/
def Obligations.DecodeAcceptsDefinedWords : Prop :=
  ∀ w : Word, (∃ i, decode w = .ok i) ↔
    w.toNat / 4096 = 0 ∧ w.toNat / 128 % 2 = 0 ∧
      (w.toNat % 16 = 0 ∨ (1 ≤ w.toNat % 16 ∧ w.toNat % 16 ≤ 5 ∧ w.toNat / 16 % 8 ≤ 4))

/-- Words written out in 30_encoding.md R91 and 95_test_vectors.md, one of each family. -/
def Obligations.WrittenOutWordsDecode : Prop :=
  decode 0x00000000 = .ok (.nop 0 .w8 .w8) ∧ decode 0x00000241 = .ok (.rmwXor .w32 .w8) ∧
    decode 0x00000002 = .ok (.blit1dCopy .w8 .w8) ∧ decode 0x00000533 = .ok (.blit2dOr .w16 .w16) ∧
    decode 0x00000044 = .ok (.blit2dpXor .w8 .w8) ∧ decode 0x00000105 = .ok (.packCopy .w16 .w8)

/-! ### The register block -/

/-- After reset every register reads 0 (10_state.md R36), whatever the engine held before; reset starts no command and
leaves system memory as it is. -/
def Obligations.ResetLeavesEveryRegisterZero : Prop :=
  (∀ r : Reg, State.reset.readReg r = 0) ∧
    ∀ (s : State) (rest : List HostEvent), s.pending = .reset :: rest →
      ∃ t, step s = .next t ∧ (∀ r : Reg, t.readReg r = 0) ∧ t.mem = s.mem ∧ t.trace = [] ∧ t.pending = rest ∧
        t.holes = s.holes

/-- A host write to a descriptor register is read back whole, changes no other register and no memory, and makes no
access (10_state.md R22). -/
def Obligations.DescriptorHoldsLastWrite : Prop :=
  ∀ (s : State) (r : Reg) (v : Word) (rest : List HostEvent),
    r ≠ .cmd → r ≠ .status → r ≠ .res → r ≠ .reserved → s.pending = .regWrite (regOffset r) 4 v :: rest →
      ∃ t, step s = .next t ∧ t.readReg r = v ∧ (∀ r', r' ≠ r → t.readReg r' = s.readReg r') ∧ t.mem = s.mem ∧
        t.trace = [] ∧ t.pending = rest ∧ t.holes = s.holes

/-- A host read of a register returns its value and changes nothing; a read of CMD starts nothing (10_state.md R25). -/
def Obligations.RegisterReadReturnsValue : Prop :=
  ∀ (s : State) (r : Reg) (rest : List HostEvent), s.pending = .regRead (regOffset r) 4 :: rest →
    step s = .next { s with pending := rest, reply := some (s.readReg r), trace := [] }

/-- A write of v to STATUS clears CFGERR and ERRCODE when v[0] = 1 and changes nothing otherwise; it starts no command
(10_state.md R27). -/
def Obligations.StatusWriteOneClears : Prop :=
  ∀ (s : State) (v : Word) (rest : List HostEvent), s.pending = .regWrite 0x04 4 v :: rest →
    step s = .next { s with
      pending := rest, reply := none, trace := [],
      status := if v.getLsbD 0 then { cfgErr := false, errCode := 0 } else s.status }

/-- STATUS as read: CFGERR in bit 0, ERRCODE in bits 7:4, every other bit 0 (10_state.md R26). -/
def Obligations.StatusWordLayout : Prop :=
  ∀ (s : State) (k : Nat), (s.readReg .status).getLsbD k =
    if k = 0 then s.status.cfgErr else if 4 ≤ k ∧ k < 8 then s.status.errCode.getLsbD (k - 4) else false

/-- A host write to RES or to the reserved word is ignored, and the reserved word reads 0 (10_state.md R28, R30). -/
def Obligations.ReadOnlyRegistersIgnoreWrites : Prop :=
  ∀ (s : State) (v : Word) (rest : List HostEvent),
    s.pending = .regWrite 0x38 4 v :: rest ∨ s.pending = .regWrite 0x3C 4 v :: rest →
      step s = .next { s with pending := rest, reply := none, trace := [] } ∧ s.readReg .reserved = 0

/-- The register port refuses every access that is not an aligned 32-bit word of offsets 0x00 to 0x3C, and no other
(10_state.md R30, R31; that the model refuses them is 93_implementation_defined.md U9). -/
def Obligations.PortRefusesExactlyOtherAccesses : Prop :=
  ∀ (s : State) (off v : Word) (size : Nat) (rest : List HostEvent),
    s.pending = .regWrite off size v :: rest ∨ s.pending = .regRead off size :: rest →
      (step s = .refused .registerAccess ↔ ¬ (size = 4 ∧ off.toNat % 4 = 0 ∧ off.toNat < 0x40))

/-- The set-up macros of 30_encoding.md R92 leave their arguments in the descriptors they name and change nothing
else, one step a write. -/
def Obligations.SetupMacrosFillDescriptors : Prop :=
  ∀ (s : State) (a b c d e f g h : Word) (rest : List HostEvent),
    (Sys2Proof.core.run 5 { s with pending := setupBlit1d a b c d e ++ rest } =
      .next ({ s with
        pending := rest, reply := none, trace := [],
        desc := { s.desc with dstBase := a, dstCap := b, dstX := c, srcBase := d, srcW := e } } : State)) ∧
    (Sys2Proof.core.run 8 { s with pending := setupBlit2d a b c d e f g h ++ rest } =
      .next ({ s with
        pending := rest, reply := none, trace := [],
        desc := { s.desc with
          dstBase := a, dstCap := b, dstRows := c, dstX := d, dstY := e, srcBase := f, srcW := g, srcH := h } } : State)) ∧
    (Sys2Proof.core.run 3 { s with pending := setupPack a b c ++ rest } =
      .next ({ s with
        pending := rest, reply := none, trace := [],
        desc := { s.desc with dstBase := a, srcBase := b, shift := c } } : State)) ∧
    (Sys2Proof.core.run 4 { s with pending := setupRmw a b c d ++ rest } =
      .next ({ s with
        pending := rest, reply := none, trace := [],
        desc := { s.desc with opa := a, opb := b, mask := c, shift := d } } : State))

/-! ### Commands at the port -/

/-- A step at a CMD write whose word decodes to i is exec of i, in the state in which CMD holds the word, the event is
taken off the list, and nothing has been returned or accessed for it yet (10_state.md R25). -/
def Obligations.StepRunsDecodedCommand : Prop :=
  ∀ (s : State) (w : Word) (i : Instr) (rest : List HostEvent), s.pending = .regWrite 0 4 w :: rest →
    decode w = .ok i → step s = exec i { s with cmd := w, pending := rest, reply := none, trace := [] }

/-- A command word in which a configuration error of 60_exceptions.md R211 applies is refused: the next state is the
state before it with CMD holding the word and STATUS recording the lowest code that applies, if CFGERR was 0; no memory
access is made and nothing else changes (R212, R213). -/
def Obligations.RefusalRecordsLowestCode : Prop :=
  ∀ (s : State) (w : Word) (rest : List HostEvent), s.pending = .regWrite 0 4 w :: rest →
    refusalCode w s.desc ≠ 0 →
      step s = .next { s with
        cmd := w, pending := rest, reply := none, trace := [],
        status := if s.status.cfgErr then s.status
          else { cfgErr := true, errCode := BitVec.ofNat 4 (refusalCode w s.desc) } }

/-- A command to which no configuration error applies leaves STATUS and every descriptor as they are (10_state.md R22,
R29); CMD holds the word. It can only be stuck at an access that does not complete (20_memory.md R71). -/
def Obligations.AcceptedCommandKeepsStatus : Prop :=
  ∀ (s : State) (w : Word) (rest : List HostEvent), s.pending = .regWrite 0 4 w :: rest →
    refusalCode w s.desc = 0 →
      (∃ t, step s = .next t ∧ t.status = s.status ∧ t.desc = s.desc ∧ t.cmd = w ∧ t.pending = rest) ∨
        (step s = .fault .accessNotCompleted ∧ s.holes ≠ [])

/-- NOP completes in every state and changes nothing, whatever its OP, WD and WS fields hold (44_control.md R200). -/
def Obligations.NopChangesNothing : Prop :=
  ∀ (op : BitVec 3) (wd ws : WidthCode) (s : State), exec (.nop op wd ws) s = .next s

/-! ### The transform and the RMW command -/

/-- The result bit by bit: the destination bit outside the mask, the table of 40_rmw.md R109 inside it. -/
def Obligations.RmwPerBit : Prop :=
  ∀ (op : Op) (Wd Ws : Nat) (D M : BitVec Wd) (S : BitVec Ws) (sh : Int) (b : Nat), b < Wd →
    (rmw op D S M sh).getLsbD b =
      if M.getLsbD b then
        match op with
        | .copy => (shiftSource (S.setWidth Wd) sh).getLsbD b
        | .inv => !(shiftSource (S.setWidth Wd) sh).getLsbD b
        | .and => D.getLsbD b && (shiftSource (S.setWidth Wd) sh).getLsbD b
        | .or => D.getLsbD b || (shiftSource (S.setWidth Wd) sh).getLsbD b
        | .xor => Bool.xor (D.getLsbD b) ((shiftSource (S.setWidth Wd) sh).getLsbD b)
      else D.getLsbD b

/-- The shift is floor(S0 * 2^sh) mod 2^Wd (40_rmw.md R102), for every signed amount. -/
def Obligations.RmwShiftIsFloorOfProduct : Prop :=
  ∀ (W : Nat) (x : BitVec W) (sh : Int),
    (0 ≤ sh → (shiftSource x sh).toNat = x.toNat * 2 ^ sh.toNat % 2 ^ W) ∧
      (sh < 0 → (shiftSource x sh).toNat = x.toNat / 2 ^ (-sh).toNat)

/-- Applied twice with the same source, mask and shift: XOR restores the destination, the other four change nothing the
second time; COPY and INV do not depend on the masked bits of the destination (40_rmw.md R114). -/
def Obligations.RmwAppliedTwice : Prop :=
  ∀ (op : Op) (Wd Ws : Nat) (D M : BitVec Wd) (S : BitVec Ws) (sh : Int),
    rmw op (rmw op D S M sh) S M sh = (if op = .xor then D else rmw op D S M sh) ∧
      ∀ D' : BitVec Wd, op = .copy ∨ op = .inv → D &&& ~~~M = D' &&& ~~~M → rmw op D S M sh = rmw op D' S M sh

/-- Two applications with disjoint masks commute, and each bit is decided by at most one of them (40_rmw.md R115). -/
def Obligations.RmwDisjointMasksCommute : Prop :=
  ∀ (op : Op) (Wd Ws : Nat) (D M1 M2 : BitVec Wd) (S1 S2 : BitVec Ws) (sh1 sh2 : Int), M1 &&& M2 = 0 →
    rmw op (rmw op D S1 M1 sh1) S2 M2 sh2 = rmw op (rmw op D S2 M2 sh2) S1 M1 sh1 ∧
      ∀ b < Wd, (rmw op (rmw op D S1 M1 sh1) S2 M2 sh2).getLsbD b =
        if M1.getLsbD b then (rmw op D S1 M1 sh1).getLsbD b
        else if M2.getLsbD b then (rmw op D S2 M2 sh2).getLsbD b
        else D.getLsbD b

/-- The bits outside the mask are the destination's; an empty mask changes nothing (40_rmw.md R113). -/
def Obligations.RmwMaskLocality : Prop :=
  ∀ (op : Op) (Wd Ws : Nat) (D M : BitVec Wd) (S : BitVec Ws) (sh : Int),
    rmw op D S M sh &&& ~~~M = D &&& ~~~M ∧ (M = 0 → rmw op D S M sh = D)

/-- RMW with a legal pair of widths completes in every state: RES takes the transform of OPA, OPB and MASK truncated to
the widths and SHIFT read signed, zero-extended; nothing else changes and no memory is accessed (40_rmw.md R112). -/
def Obligations.RmwCommandWritesRes : Prop :=
  ∀ (op : Op) (wd ws : WidthCode) (Wd Ws : Nat) (s : State),
    widthBits wd = some Wd → widthBits ws = some Ws → Ws ≤ Wd →
      exec (.rmw op wd ws) s = .next { s with
        res := (rmw op (s.desc.opa.setWidth Wd) (s.desc.opb.setWidth Ws) (s.desc.mask.setWidth Wd)
          s.desc.shift.toInt).setWidth 32 }

/-! ### BLIT1D -/

/-- The net effect of an accepted BLIT1D (41_blit1d.md R131): with source and destination apart it completes; each of
the n destination bits from `off` on becomes t(op, d, s); every other bit of memory, every register and every other
field is unchanged. -/
def Obligations.Blit1dNetEffect : Prop :=
  ∀ (op : Op) (wd ws : WidthCode) (W : Nat) (s : State), blitReady s.desc wd ws W → blit1dApart s.desc W →
    allComplete s.holes (blit1dAccesses op W s.desc) →
      ∃ t, exec (.blit1d op wd ws) s = .next t ∧ { t with mem := s.mem, trace := s.trace } = s ∧
        (∀ i < runLength s.desc W,
          rowBit t.mem s.desc.dstBase W 0 (s.desc.dstX.toNat + i) =
            opBit op (rowBit s.mem s.desc.dstBase W 0 (s.desc.dstX.toNat + i)) (rowBit s.mem s.desc.srcBase W 0 i)) ∧
        ∀ (a : Word) (k : Nat), k < 8 →
          (∀ i < runLength s.desc W, bitHome s.desc.dstBase W 0 (s.desc.dstX.toNat + i) ≠ (a, k)) →
            memBit t.mem a k = memBit s.mem a k

/-- The accesses of an accepted BLIT1D, in order, are those of 41_blit1d.md R132, overlapping buffers or not. -/
def Obligations.Blit1dMakesListedAccesses : Prop :=
  ∀ (op : Op) (wd ws : WidthCode) (W : Nat) (s : State), blitReady s.desc wd ws W →
    allComplete s.holes (blit1dAccesses op W s.desc) →
      ∃ t accs, exec (.blit1d op wd ws) s = .next t ∧ t.trace = s.trace ++ accs ∧
        accs.map BusAccess.shape = blit1dAccesses op W s.desc

/-- An empty run, because the length is 0 or the start is at or beyond the capacity, makes no access and changes
nothing (41_blit1d.md R123). -/
def Obligations.Blit1dEmptyRunChangesNothing : Prop :=
  ∀ (op : Op) (wd ws : WidthCode) (W : Nat) (s : State), blitReady s.desc wd ws W →
    s.desc.srcW = 0 ∨ s.desc.dstCap.toNat ≤ s.desc.dstX.toNat / W → exec (.blit1d op wd ws) s = .next s

/-- The same BLIT1D issued twice: XOR restores every byte, the other operations leave what the first left
(41_blit1d.md R137). -/
def Obligations.Blit1dIssuedTwice : Prop :=
  ∀ (op : Op) (wd ws : WidthCode) (W : Nat) (s : State), blitReady s.desc wd ws W → blit1dApart s.desc W →
    allComplete s.holes (blit1dAccesses op W s.desc) →
      ∃ t u, exec (.blit1d op wd ws) s = .next t ∧ exec (.blit1d op wd ws) t = .next u ∧
        ∀ a : Word, u.mem.read a.toNat = if op = .xor then s.mem.read a.toNat else t.mem.read a.toNat

/-! ### BLIT2D and BLIT2DP -/

/-- The net effect of an accepted BLIT2D (42_blit2d.md R158): with source and destination apart and a destination that
fits (70_reset_and_hazards.md R244, R246), it completes; each bit of the clipped rectangle becomes t(op, d, s); every
other bit of memory, every register and every other field is unchanged. -/
def Obligations.Blit2dNetEffect : Prop :=
  ∀ (op : Op) (wd ws : WidthCode) (W : Nat) (s : State), rectReady s.desc wd ws W → blit2dApart s.desc W →
    rectFits s.desc W → allComplete s.holes (blit2dAccesses op W s.desc) →
      ∃ t, exec (.blit2d op wd ws) s = .next t ∧ { t with mem := s.mem, trace := s.trace } = s ∧
        (∀ r < (clip2d s.desc W).hclip, ∀ x < (clip2d s.desc W).wclip,
          rowBit t.mem s.desc.dstBase W ((s.desc.dstY.toNat + r) * s.desc.dstCap.toNat) (s.desc.dstX.toNat + x) =
            opBit op
              (rowBit s.mem s.desc.dstBase W ((s.desc.dstY.toNat + r) * s.desc.dstCap.toNat) (s.desc.dstX.toNat + x))
              (rowBit s.mem s.desc.srcBase W (r * ceilDiv s.desc.srcW.toNat W) x)) ∧
        ∀ (a : Word) (k : Nat), k < 8 →
          (∀ r < (clip2d s.desc W).hclip, ∀ x < (clip2d s.desc W).wclip,
            bitHome s.desc.dstBase W ((s.desc.dstY.toNat + r) * s.desc.dstCap.toNat) (s.desc.dstX.toNat + x) ≠ (a, k)) →
            memBit t.mem a k = memBit s.mem a k

/-- The net effect of an accepted BLIT2DP (42_blit2d.md R158), the same as BLIT2D's, under the accesses of its own and the
same preconditions (70_reset_and_hazards.md R244, R246). -/
def Obligations.Blit2dpNetEffect : Prop :=
  ∀ (op : Op) (wd ws : WidthCode) (W : Nat) (s : State), rectReady s.desc wd ws W → blit2dApart s.desc W →
    rectFits s.desc W → allComplete s.holes (blit2dpAccesses W s.desc) →
      ∃ t, exec (.blit2dp op wd ws) s = .next t ∧ { t with mem := s.mem, trace := s.trace } = s ∧
        (∀ r < (clip2d s.desc W).hclip, ∀ x < (clip2d s.desc W).wclip,
          rowBit t.mem s.desc.dstBase W ((s.desc.dstY.toNat + r) * s.desc.dstCap.toNat) (s.desc.dstX.toNat + x) =
            opBit op
              (rowBit s.mem s.desc.dstBase W ((s.desc.dstY.toNat + r) * s.desc.dstCap.toNat) (s.desc.dstX.toNat + x))
              (rowBit s.mem s.desc.srcBase W (r * ceilDiv s.desc.srcW.toNat W) x)) ∧
        ∀ (a : Word) (k : Nat), k < 8 →
          (∀ r < (clip2d s.desc W).hclip, ∀ x < (clip2d s.desc W).wclip,
            bitHome s.desc.dstBase W ((s.desc.dstY.toNat + r) * s.desc.dstCap.toNat) (s.desc.dstX.toNat + x) ≠ (a, k)) →
            memBit t.mem a k = memBit s.mem a k

/-- The two realizations leave the same memory contents (42_blit2d.md R157). -/
def Obligations.RealizationsLeaveSameMemory : Prop :=
  ∀ (op : Op) (wd ws : WidthCode) (W : Nat) (s : State), rectReady s.desc wd ws W → blit2dApart s.desc W →
    rectFits s.desc W → allComplete s.holes (blit2dAccesses op W s.desc) →
      allComplete s.holes (blit2dpAccesses W s.desc) →
        ∃ t u, exec (.blit2d op wd ws) s = .next t ∧ exec (.blit2dp op wd ws) s = .next u ∧
          ∀ a : Word, t.mem.read a.toNat = u.mem.read a.toNat

/-- The accesses of an accepted BLIT2D, row by row in order (42_blit2d.md R159). -/
def Obligations.Blit2dMakesListedAccesses : Prop :=
  ∀ (op : Op) (wd ws : WidthCode) (W : Nat) (s : State), rectReady s.desc wd ws W →
    allComplete s.holes (blit2dAccesses op W s.desc) →
      ∃ t accs, exec (.blit2d op wd ws) s = .next t ∧ t.trace = s.trace ++ accs ∧
        accs.map BusAccess.shape = blit2dAccesses op W s.desc

/-- The accesses of an accepted BLIT2DP, three for each pixel in order (42_blit2d.md R155, R159). -/
def Obligations.Blit2dpMakesListedAccesses : Prop :=
  ∀ (op : Op) (wd ws : WidthCode) (W : Nat) (s : State), rectReady s.desc wd ws W →
    allComplete s.holes (blit2dpAccesses W s.desc) →
      ∃ t accs, exec (.blit2dp op wd ws) s = .next t ∧ t.trace = s.trace ++ accs ∧
        accs.map BusAccess.shape = blit2dpAccesses W s.desc

/-- A rectangle with nothing inside the destination performs zero rows: no access, nothing changed (42_blit2d.md
R152). -/
def Obligations.EmptyRectangleChangesNothing : Prop :=
  ∀ (op : Op) (wd ws : WidthCode) (W : Nat) (s : State), rectReady s.desc wd ws W →
    s.desc.dstCap.toNat * W ≤ s.desc.dstX.toNat ∨ s.desc.dstRows.toNat ≤ s.desc.dstY.toNat ∨ s.desc.srcW = 0 ∨
      s.desc.srcH = 0 →
      exec (.blit2d op wd ws) s = .next s ∧ exec (.blit2dp op wd ws) s = .next s

/-- Each pixel step is one application of the transform with a one-bit mask and a shift of magnitude at most W - 1
(42_blit2d.md R162). -/
def Obligations.PixelStepIsOneBitRmw : Prop :=
  ∀ (op : Op) (W db sb : Nat) (d s : BitVec W), db < W → sb < W →
    (d &&& ~~~(1#W <<< db)) ||| ((BitVec.ofBool (opBit op (d.getLsbD db) (s.getLsbD sb))).setWidth W <<< db) =
        rmw op d s (1#W <<< db) ((db : Int) - (sb : Int)) ∧
      ((db : Int) - (sb : Int)).natAbs ≤ W - 1

/-- A rectangle of one row in a destination of one row is BLIT1D, refusals and accesses included (42_blit2d.md R161). -/
def Obligations.OneRowRectangleIsBlit1d : Prop :=
  ∀ (op : Op) (wd ws : WidthCode) (s : State), s.desc.dstRows = 1 → s.desc.dstY = 0 → s.desc.srcH = 1 →
    exec (.blit2d op wd ws) s = exec (.blit1d op wd ws) s

/-- The same rectangular blit issued twice: XOR restores every byte, the other operations leave what the first left
(42_blit2d.md R163). -/
def Obligations.RectangleIssuedTwice : Prop :=
  ∀ (op : Op) (wd ws : WidthCode) (W : Nat) (s : State) (i : Instr) (accs : List BusAccess),
    (i = .blit2d op wd ws ∧ accs = blit2dAccesses op W s.desc) ∨
      (i = .blit2dp op wd ws ∧ accs = blit2dpAccesses W s.desc) →
    rectReady s.desc wd ws W → blit2dApart s.desc W → rectFits s.desc W → allComplete s.holes accs →
      ∃ t u, exec i s = .next t ∧ exec i t = .next u ∧
        ∀ a : Word, u.mem.read a.toNat = if op = .xor then s.mem.read a.toNat else t.mem.read a.toNat

/-! ### PACK -/

/-- The net effect of an accepted PACK (43_pack.md R189): with source and destination apart it completes; destination
bit Wd - 1 - m is combined with stream position SHIFT + m for every m below Wd; every byte outside the destination
element, every register and every other field is unchanged. -/
def Obligations.PackNetEffect : Prop :=
  ∀ (op : Op) (wd ws : WidthCode) (Wd Ws : Nat) (s : State), packReady s.desc wd ws Wd Ws →
    packApart s.desc Wd Ws → allComplete s.holes (packAccesses Wd Ws s.desc) →
      ∃ t, exec (.pack op wd ws) s = .next t ∧ { t with mem := s.mem, trace := s.trace } = s ∧
        (∀ m < Wd,
          (t.mem.readElem (elemAddr s.desc.dstBase 0 Wd) Wd).getLsbD (Wd - 1 - m) =
            opBit op ((s.mem.readElem (elemAddr s.desc.dstBase 0 Wd) Wd).getLsbD (Wd - 1 - m))
              (streamBit s.mem s.desc.srcBase Ws (s.desc.shift.toNat + m))) ∧
        ∀ a : Word, (∀ j < Wd / 8, byteAddr (elemAddr s.desc.dstBase 0 Wd) j ≠ a) →
          t.mem.read a.toNat = s.mem.read a.toNat

/-- The accesses of an accepted PACK, in order (43_pack.md R187): the destination, the source elements with the
look-ahead when SHIFT is not 0, the destination write. -/
def Obligations.PackMakesListedAccesses : Prop :=
  ∀ (op : Op) (wd ws : WidthCode) (Wd Ws : Nat) (s : State), packReady s.desc wd ws Wd Ws →
    allComplete s.holes (packAccesses Wd Ws s.desc) →
      ∃ t accs, exec (.pack op wd ws) s = .next t ∧ t.trace = s.trace ++ accs ∧
        accs.map BusAccess.shape = packAccesses Wd Ws s.desc

/-! ### The whole machine -/

/-- The invariant holds after reset. -/
def Obligations.ResetSatisfiesInvariant : Prop :=
  State.reset.inv

/-- Every step that answers a next state keeps the invariant: canonical memory, a legal STATUS (10_state.md R26,
60_exceptions.md R211), and only naturally aligned element accesses (20_memory.md R51, R56). -/
def Obligations.StepKeepsInvariant : Prop :=
  ∀ s t : State, s.inv → step s = .next t → t.inv

/-- No command refuses, each command completes unless an address has nothing behind it, and none writes CMD, a
descriptor or a field of the host's; only RMW writes RES (10_state.md R21, R22, R28). -/
def Obligations.CommandsKeepHostRegisters : Prop :=
  ∀ (i : Instr) (s : State),
    match exec i s with
    | .next t =>
      t.cmd = s.cmd ∧ t.desc = s.desc ∧ t.pending = s.pending ∧ t.reply = s.reply ∧ t.holes = s.holes ∧
        ((∀ op wd ws, i ≠ .rmw op wd ws) → t.res = s.res)
    | .fault r => r = .accessNotCompleted ∧ s.holes ≠ []
    | .refused _ => False

/-- The memory after a command is the memory before it with the command's recorded destination writes performed in
order, so every byte outside them reads as before (20_memory.md R60). -/
def Obligations.MemoryChangesOnlyByRecordedWrites : Prop :=
  ∀ (i : Instr) (s t : State), exec i s = .next t →
    ∃ accs, t.trace = s.trace ++ accs ∧ t.mem = replay s.mem accs ∧
      ∀ a : Word, (∀ b n v, BusAccess.dstWrite b n v ∈ accs → ∀ j < n, byteAddr b j ≠ a) →
        t.mem.read a.toNat = s.mem.read a.toNat

/-- No destination access, read or write, leaves the destination: below DST_CAP for BLIT1D, below DST_CAP * DST_ROWS
for BLIT2D and BLIT2DP, element 0 for PACK (20_memory.md R58). -/
def Obligations.DestinationAccessesInBounds : Prop :=
  ∀ (op : Op) (wd ws : WidthCode) (i : Instr) (s t : State) (W bound : Nat) (accs : List BusAccess),
    (i = .blit1d op wd ws ∧ bound = s.desc.dstCap.toNat) ∨
      (i = .blit2d op wd ws ∧ bound = s.desc.dstCap.toNat * s.desc.dstRows.toNat) ∨
      (i = .blit2dp op wd ws ∧ bound = s.desc.dstCap.toNat * s.desc.dstRows.toNat) ∨
      (i = .pack op wd ws ∧ bound = 1) →
    widthBits wd = some W → exec i s = .next t → t.trace = s.trace ++ accs →
      ∀ x ∈ accs, (∃ a n, x = .srcRead a n) ∨
        ∃ e < bound, x.addr = elemAddr s.desc.dstBase e W ∧ x.size = W / 8

/-- What a command does depends on the descriptors it reads (10_state.md R23), memory and the platform alone: in two
states that agree on those it makes the same accesses, leaves the same memory, writes the same result and records the
same error (R38). -/
def Obligations.CommandDependsOnlyOnWhatItReads : Prop :=
  ∀ (i : Instr) (s s' : State), (∀ r ∈ readsRegs i, s.readReg r = s'.readReg r) → s.mem = s'.mem →
    s.holes = s'.holes →
    match exec i s, exec i s' with
    | .next t, .next t' =>
      t.mem = t'.mem ∧ (∃ accs, t.trace = s.trace ++ accs ∧ t'.trace = s'.trace ++ accs) ∧
        ((t.res = s.res ∧ t'.res = s'.res) ∨ t.res = t'.res) ∧
        ((t.status = s.status ∧ t'.status = s'.status) ∨
          ∃ e, t.status = s.status.record e ∧ t'.status = s'.status.record e)
    | .fault r, .fault r' => r = r'
    | _, _ => False

/-- A command is stuck exactly when one of the accesses it would make finds nothing behind its address; otherwise it
does what it does where every access completes (20_memory.md R71). -/
def Obligations.StuckExactlyWhenAccessNotCompleted : Prop :=
  ∀ (i : Instr) (s t : State) (accs : List BusAccess), exec i { s with holes := [] } = .next t →
    t.trace = s.trace ++ accs →
      exec i s =
        if accs.all (completes s.holes) then .next { t with holes := s.holes } else .fault .accessNotCompleted

/-- Reset after the first k accesses of a command that can run: those accesses stay performed, the rest are never made,
every register goes to its reset value (70_reset_and_hazards.md R242). -/
def Obligations.ResetDuringCommandKeepsPerformedAccesses : Prop :=
  ∀ (s t : State) (w : Word) (k : Nat) (rest : List HostEvent), s.pending = .cmdThenReset w k :: rest →
    ({ s with pending := rest, reply := none, trace := [] } : State).runWord w = .next t →
      step s = .next { State.reset with
        mem := replay s.mem (t.trace.take k), trace := t.trace.take k, pending := rest, holes := s.holes }

/-- A BLIT1D that reset abandons leaves each destination element either as it was or as the whole command would have
left it (70_reset_and_hazards.md R242). -/
def Obligations.AbandonedBlit1dElementsOldOrNew : Prop :=
  ∀ (op : Op) (wd ws : WidthCode) (W k : Nat) (s : State) (w : Word) (rest : List HostEvent),
    s.pending = .cmdThenReset w k :: rest → decode w = .ok (.blit1d op wd ws) → blitReady s.desc wd ws W →
      allComplete s.holes (blit1dAccesses op W s.desc) →
        ∃ t u, exec (.blit1d op wd ws) s = .next t ∧ step s = .next u ∧
          ∀ e < ceilDiv (s.desc.dstX.toNat + runLength s.desc W) W, s.desc.dstX.toNat / W ≤ e →
            u.mem.readElem (elemAddr s.desc.dstBase e W) W = s.mem.readElem (elemAddr s.desc.dstBase e W) W ∨
              u.mem.readElem (elemAddr s.desc.dstBase e W) W = t.mem.readElem (elemAddr s.desc.dstBase e W) W

/-- Bit i of a buffer is bit i mod 8 of the byte at base + i div 8, whatever the element width (20_memory.md R53). -/
def Obligations.FlatBitsDoNotDependOnWidth : Prop :=
  ∀ (m : Memory) (base : Word) (W i : Nat), W = 8 ∨ W = 16 ∨ W = 32 →
    rowBit m base W 0 i = memBit m (byteAddr base (i / 8)) (i % 8)

/-- The model's choice (log entry 1, from 70_reset_and_hazards.md R241 by inference): with no host event pending a step
changes nothing. -/
def Obligations.IdleEngineDoesNothing : Prop :=
  ∀ s : State, s.pending = [] → step s = .next s

/-- A byte the host stores is in memory for the commands after it, and every other byte and register is as before
(20_memory.md R65; the byte-wide host event is the model's, log entry 15). -/
def Obligations.HostStoreReachesMemory : Prop :=
  ∀ (s : State) (a : Word) (v : Byte) (rest : List HostEvent), s.pending = .memStore a v :: rest →
    backed s.holes a = true →
      ∃ t, step s = .next t ∧ (∀ x : Nat, t.mem.read x = if x = a.toNat then v else s.mem.read x) ∧
        (∀ r : Reg, t.readReg r = s.readReg r) ∧ t.pending = rest ∧ t.holes = s.holes ∧ t.trace = []
end

