-- ==== Sys2Proof/Laws/Memory.lean ====
section
/-! SUPPORT. Sys2Proof/Laws/Memory.lean: what reads give after writes, byte by byte and element by element, and that
every write keeps the canonical form. -/

namespace Sys2Proof.Machine

/-! ### One byte -/

theorem Memory.read_forget (m : Memory) (x y : Nat) :
    (m.forget x).read y = if y = x then Memory.unlisted else m.read y := by
  induction m with
  | nil => simp [Memory.forget, Memory.read]
  | cons c m ih =>
    simp only [Memory.forget] at ih ⊢
    by_cases h : c.1 = x
    · rw [List.filter_cons_of_neg (by simp [h]), ih]
      by_cases hy : y = x
      · simp [hy]
      · simp [hy, Memory.read, h, Ne.symm hy]
    · rw [List.filter_cons_of_pos (by simp [h])]
      simp only [Memory.read, ih]
      by_cases hc : c.1 = y
      · simp [hc, show y ≠ x from hc ▸ h]
      · simp [hc]

theorem Memory.mem_forget {m : Memory} {x : Nat} {c : Host.Cell} (h : c ∈ m.forget x) : c ∈ m ∧ c.1 ≠ x := by
  simpa [Memory.forget] using h

theorem Memory.mem_place {m : Memory} {x : Nat} {v : Byte} {c : Host.Cell} (h : c ∈ m.place x v) :
    c = (x, v) ∨ c ∈ m := by
  induction m with
  | nil => simpa [Memory.place] using h
  | cons d m ih =>
    simp only [Memory.place] at h
    split at h
    · simpa using h
    · rcases List.mem_cons.1 h with h | h
      · simp [h]
      · rcases ih h with h | h <;> simp [h]

theorem Memory.read_place (m : Memory) (x : Nat) (v : Byte) (y : Nat) (h : ∀ c ∈ m, c.1 ≠ x) :
    (m.place x v).read y = if y = x then v else m.read y := by
  induction m with
  | nil => simp [Memory.place, Memory.read, eq_comm]
  | cons c m ih =>
    have hc := h c (by simp)
    have ih := ih fun d hd => h d (by simp [hd])
    simp only [Memory.place]
    split
    · simp [Memory.read, eq_comm]
    · simp only [Memory.read, ih]
      by_cases hy : c.1 = y
      · simp [hy, show y ≠ x from hy ▸ hc]
      · simp [hy]

/-- Reading a byte after writing one: the byte written at its address, every other byte as before. -/
theorem Memory.read_write (m : Memory) (x : Nat) (v : Byte) (y : Nat) :
    (m.write x v).read y = if y = x then v else m.read y := by
  unfold Memory.write
  split
  · rename_i hv
    rw [Memory.read_forget, hv]
  · rw [Memory.read_place _ _ _ _ fun c hc => (Memory.mem_forget hc).2, Memory.read_forget]
    split <;> rfl

@[simp] theorem Memory.read_write_same (m : Memory) (x : Nat) (v : Byte) : (m.write x v).read x = v := by
  simp [Memory.read_write]

theorem Memory.read_write_other (m : Memory) {x y : Nat} (v : Byte) (h : y ≠ x) :
    (m.write x v).read y = m.read y := by
  simp [Memory.read_write, h]

/-! ### The canonical form -/

theorem Memory.forget_wf {m : Memory} (h : m.wf) (x : Nat) : (m.forget x).wf :=
  ⟨h.1.filter _, fun c hc => h.2 c (Memory.mem_forget hc).1⟩

theorem Memory.place_sorted {m : Memory} (h : m.Pairwise fun c d => c.1 < d.1) {x : Nat} (v : Byte)
    (hx : ∀ c ∈ m, c.1 ≠ x) : (m.place x v).Pairwise fun c d => c.1 < d.1 := by
  induction m with
  | nil => simp [Memory.place]
  | cons c m ih =>
    obtain ⟨hc, hm⟩ := List.pairwise_cons.1 h
    simp only [Memory.place]
    split
    · rename_i hlt
      refine List.pairwise_cons.2 ⟨fun d hd => ?_, h⟩
      rcases List.mem_cons.1 hd with rfl | hd
      · exact hlt
      · exact hlt.trans (hc d hd)
    · rename_i hge
      refine List.pairwise_cons.2 ⟨fun d hd => ?_, ih hm fun d hd => hx d (by simp [hd])⟩
      rcases Memory.mem_place hd with rfl | hd
      · have := hx c (by simp)
        simp only at hge ⊢
        omega
      · exact hc d hd

/-- A write of one byte keeps the canonical form. -/
theorem Memory.write_wf {m : Memory} (h : m.wf) {x : Nat} (hx : x < 2 ^ 32) (v : Byte) : (m.write x v).wf := by
  unfold Memory.write
  split
  · exact Memory.forget_wf h x
  · rename_i hv
    have hf := Memory.forget_wf h x
    refine ⟨Memory.place_sorted hf.1 v fun c hc => (Memory.mem_forget hc).2, fun c hc => ?_⟩
    rcases Memory.mem_place hc with rfl | hc
    · exact ⟨hx, hv⟩
    · exact hf.2 c hc

/-- A write of some bytes keeps the canonical form. -/
theorem Memory.writeBytes_wf {m : Memory} (h : m.wf) (a : Word) (v n : Nat) : (m.writeBytes a v n).wf := by
  induction n with
  | zero => exact h
  | succ n ih => exact Memory.write_wf ih (BitVec.isLt _) _

/-- A write of an element keeps the canonical form. -/
theorem Memory.writeElem_wf {m : Memory} (h : m.wf) (a : Word) {W : Nat} (v : BitVec W) : (m.writeElem a v).wf :=
  Memory.writeBytes_wf h a _ _

theorem Memory.read_eq_unlisted {m : Memory} {x : Nat} (h : ∀ c ∈ m, c.1 ≠ x) : m.read x = Memory.unlisted := by
  induction m with
  | nil => rfl
  | cons c m ih =>
    simp only [Memory.read, if_neg (h c (by simp))]
    exact ih fun d hd => h d (by simp [hd])

/-- Two memories in canonical form with the same bytes are the same list. -/
theorem Memory.ext_of_wf {m m' : Memory} (h : m.wf) (h' : m'.wf) (heq : ∀ x, m.read x = m'.read x) : m = m' := by
  induction m generalizing m' with
  | nil =>
    cases m' with
    | nil => rfl
    | cons d m' =>
      have := heq d.1
      simp only [Memory.read, if_true] at this
      exact absurd this.symm (h'.2 d (by simp)).2
  | cons c m ih =>
    obtain ⟨hcm, hm⟩ := List.pairwise_cons.1 h.1
    cases m' with
    | nil =>
      have := heq c.1
      simp only [Memory.read, if_true] at this
      exact absurd this (h.2 c (by simp)).2
    | cons d m' =>
      obtain ⟨hdm, hm'⟩ := List.pairwise_cons.1 h'.1
      have hcd : c.1 = d.1 := by
        rcases lt_trichotomy c.1 d.1 with hlt | he | hgt
        · have h1 := heq c.1
          have h2 : Memory.read (d :: m') c.1 = Memory.unlisted := by
            refine Memory.read_eq_unlisted fun e he => ?_
            rcases List.mem_cons.1 he with rfl | he
            · omega
            · have := hdm e he; omega
          simp only [Memory.read, if_true] at h1 h2
          exact absurd (h1.trans h2) (h.2 c (by simp)).2
        · exact he
        · have h1 := heq d.1
          have h2 : Memory.read (c :: m) d.1 = Memory.unlisted := by
            refine Memory.read_eq_unlisted fun e he => ?_
            rcases List.mem_cons.1 he with rfl | he
            · omega
            · have := hcm e he; omega
          simp only [Memory.read, if_true] at h1 h2
          exact absurd (h1.symm.trans h2) (h'.2 d (by simp)).2
      have hv : c.2 = d.2 := by
        have := heq c.1
        simpa [Memory.read, hcd] using this
      have htail : m = m' := by
        refine ih ⟨hm, fun e he => h.2 e (by simp [he])⟩ ⟨hm', fun e he => h'.2 e (by simp [he])⟩ fun x => ?_
        by_cases hx : c.1 = x
        · rw [Memory.read_eq_unlisted fun e he => ?_, Memory.read_eq_unlisted fun e he => ?_]
          · have := hdm e he; omega
          · have := hcm e he; omega
        · have := heq x
          simpa [Memory.read, hx, show ¬ d.1 = x from hcd ▸ hx] using this
      rw [htail, show c = d from Prod.ext hcd hv]

/-! ### Some bytes -/

theorem byteAddr_inj {a : Word} {j k : Nat} (hj : j < 2 ^ 32) (hk : k < 2 ^ 32) (h : byteAddr a j = byteAddr a k) :
    j = k := by
  have := congrArg BitVec.toNat ((BitVec.add_right_inj a).1 h)
  simp only [BitVec.toNat_ofNat] at this
  omega

/-- A byte outside the bytes written reads as before. -/
theorem Memory.read_writeBytes_other (m : Memory) (a : Word) (v n x : Nat)
    (h : ∀ j < n, (byteAddr a j).toNat ≠ x) : (m.writeBytes a v n).read x = m.read x := by
  induction n with
  | zero => rfl
  | succ n ih =>
    rw [Memory.writeBytes, Memory.read_write_other _ _ (Ne.symm (h n (by omega))), ih fun j hj => h j (by omega)]

/-- Byte j of the bytes written is bits 8j+7 to 8j of the value (20_memory.md R53). -/
theorem Memory.read_writeBytes_same (m : Memory) (a : Word) (v n j : Nat) (hn : n ≤ 2 ^ 32) (hj : j < n) :
    (m.writeBytes a v n).read (byteAddr a j).toNat = BitVec.ofNat 8 (v >>> (8 * j)) := by
  induction n with
  | zero => omega
  | succ n ih =>
    rw [Memory.writeBytes, Memory.read_write]
    by_cases hjn : j = n
    · simp [hjn]
    · rw [if_neg, ih (by omega) (by omega)]
      exact fun h => hjn (byteAddr_inj (by omega) (by omega) (BitVec.eq_of_toNat_eq h))

theorem Memory.readBytes_congr {m m' : Memory} {a : Word} {n : Nat}
    (h : ∀ j < n, m.read (byteAddr a j).toNat = m'.read (byteAddr a j).toNat) : m.readBytes a n = m'.readBytes a n := by
  induction n with
  | zero => rfl
  | succ n ih => rw [Memory.readBytes, Memory.readBytes, ih fun j hj => h j (by omega), h n (by omega)]

theorem Memory.readBytes_lt (m : Memory) (a : Word) (n : Nat) : m.readBytes a n < 2 ^ (8 * n) := by
  induction n with
  | zero => simp [Memory.readBytes]
  | succ n ih =>
    have hb := (m.read (byteAddr a n).toNat).isLt
    have : (m.read (byteAddr a n).toNat).toNat * 2 ^ (8 * n) ≤ 255 * 2 ^ (8 * n) :=
      Nat.mul_le_mul_right _ (by omega)
    rw [Memory.readBytes, show 8 * (n + 1) = 8 * n + 8 by ring, Nat.pow_add]
    omega

/-- Bit 8j+k of n bytes read together is bit k of byte j (20_memory.md R53). -/
theorem Memory.readBytes_testBit (m : Memory) (a : Word) (n j k : Nat) (hj : j < n) (hk : k < 8) :
    (m.readBytes a n).testBit (8 * j + k) = (m.read (byteAddr a j).toNat).getLsbD k := by
  induction n with
  | zero => omega
  | succ n ih =>
    have hlt := Memory.readBytes_lt m a n
    rw [Memory.readBytes, Nat.add_comm, Nat.mul_comm, Nat.testBit_two_pow_mul_add _ hlt]
    by_cases hjn : j = n
    · rw [if_neg (by omega), hjn, show 8 * n + k - 8 * n = k by omega, BitVec.getLsbD]
    · rw [if_pos (by omega), ih (by omega)]

/-! ### One element -/

theorem Memory.readElem_congr {m m' : Memory} {a : Word} {W : Nat}
    (h : ∀ j < W / 8, m.read (byteAddr a j).toNat = m'.read (byteAddr a j).toNat) :
    m.readElem a W = m'.readElem a W := by
  rw [Memory.readElem, Memory.readElem, Memory.readBytes_congr h]

/-- Bit k of an element is bit k mod 8 of its byte k div 8 (20_memory.md R53). -/
theorem Memory.readElem_getLsbD (m : Memory) (a : Word) {W k : Nat} (hW : 8 ∣ W) (hk : k < W) :
    (m.readElem a W).getLsbD k = (m.read (byteAddr a (k / 8)).toNat).getLsbD (k % 8) := by
  rw [Memory.readElem, BitVec.getLsbD_ofNat, ← Memory.readBytes_testBit m a (W / 8) (k / 8) (k % 8) (by omega) (by omega),
    show 8 * (k / 8) + k % 8 = k by omega]
  simp [hk]

/-- An element written reads back. -/
theorem Memory.readElem_writeElem_same (m : Memory) (a : Word) {W : Nat} (v : BitVec W) (hW : 8 ∣ W)
    (hW32 : W ≤ 2 ^ 32) : (m.writeElem a v).readElem a W = v := by
  refine BitVec.eq_of_getLsbD_eq fun k hk => ?_
  rw [Memory.readElem_getLsbD _ _ hW hk, Memory.writeElem, Memory.read_writeBytes_same _ _ _ _ _ (by omega) (by omega),
    BitVec.getLsbD_ofNat, Nat.testBit_shiftRight, show 8 * (k / 8) + k % 8 = k by omega]
  simp [BitVec.getLsbD, show k % 8 < 8 by omega]

/-- A byte outside an element written reads as before. -/
theorem Memory.read_writeElem_other (m : Memory) (a : Word) {W : Nat} (v : BitVec W) (x : Nat)
    (h : ∀ j < W / 8, (byteAddr a j).toNat ≠ x) : (m.writeElem a v).read x = m.read x :=
  Memory.read_writeBytes_other m a _ _ x h

/-- An element with no byte in an element written reads as before. -/
theorem Memory.readElem_writeElem_apart (m : Memory) (a b : Word) {W V : Nat} (v : BitVec W)
    (h : ∀ j < V / 8, ∀ k < W / 8, byteAddr b j ≠ byteAddr a k) : (m.writeElem a v).readElem b V = m.readElem b V :=
  Memory.readElem_congr fun j hj => Memory.read_writeElem_other m a v _ fun k hk he =>
    h j hj k hk (BitVec.eq_of_toNat_eq he.symm)

end Sys2Proof.Machine
end

