-- ==== Sys2Proof/Laws/Bus.lean ====
section
/-! SUPPORT. Sys2Proof/Laws/Bus.lean: what each element access, each element step and the loop do, said once. -/

namespace Sys2Proof.Machine

/-! ### The loop -/

@[simp] theorem iterate_zero {α : Type} (f : Nat → α → α) (a : α) : iterate f 0 a = a := rfl

@[simp] theorem iterate_succ {α : Type} (f : Nat → α → α) (n : Nat) (a : α) :
    iterate f (n + 1) a = f n (iterate f n a) := rfl

/-- What holds before the loop and is kept by pass k (taking it from k to k + 1) holds after n passes. -/
theorem iterate_induct {α : Type} {f : Nat → α → α} {a : α} (P : Nat → α → Prop) (n : Nat) (h0 : P 0 a)
    (hs : ∀ k < n, ∀ x, P k x → P (k + 1) (f k x)) : P n (iterate f n a) := by
  induction n with
  | zero => exact h0
  | succ n ih => exact hs n (by omega) _ (ih fun k hk => hs k (by omega))

/-- Loops whose passes agree below n are the same. -/
theorem iterate_congr {α : Type} {f g : Nat → α → α} {n : Nat} (h : ∀ k < n, ∀ x, f k x = g k x) (a : α) :
    iterate f n a = iterate g n a := by
  induction n with
  | zero => rfl
  | succ n ih => rw [iterate_succ, iterate_succ, ih fun k hk => h k (by omega), h n (by omega)]

/-! ### The element accesses (20_memory.md R54) -/

section accesses
variable (base : Word) (W i : Nat) (b : Bus)

@[simp] theorem srcRead_value : (srcRead base W i b).1 = b.mem.readElem (elemAddr base i W) W := rfl
@[simp] theorem srcRead_mem : (srcRead base W i b).2.mem = b.mem := rfl
@[simp] theorem srcRead_log :
    (srcRead base W i b).2.log = b.log ++ [.srcRead (elemAddr base i W) (W / 8)] := rfl
@[simp] theorem dstRead_value : (dstRead base W i b).1 = b.mem.readElem (elemAddr base i W) W := rfl
@[simp] theorem dstRead_mem : (dstRead base W i b).2.mem = b.mem := rfl
@[simp] theorem dstRead_log :
    (dstRead base W i b).2.log = b.log ++ [.dstRead (elemAddr base i W) (W / 8)] := rfl
@[simp] theorem dstWrite_mem (v : BitVec W) : (dstWrite base i v b).mem = b.mem.writeElem (elemAddr base i W) v := rfl
@[simp] theorem dstWrite_log (v : BitVec W) :
    (dstWrite base i v b).log = b.log ++ [.dstWrite (elemAddr base i W) (W / 8) (v.setWidth 32)] := rfl

/-- A destination write keeps the canonical form of memory. -/
theorem dstWrite_wf (v : BitVec W) (h : b.mem.wf) : (dstWrite base i v b).mem.wf :=
  Memory.writeElem_wf h _ _

end accesses

/-- Two different elements of a buffer that ends within 2^32 bytes of its base have no byte in common. -/
theorem elements_apart (base : Word) {W i k : Nat} (hi : (i + 1) * (W / 8) ≤ 2 ^ 32) (hk : (k + 1) * (W / 8) ≤ 2 ^ 32)
    (hne : i ≠ k) : apart (elemAddr base i W) (W / 8) (elemAddr base k W) (W / 8) := by
  intro j hj l hl h
  simp only [byteAddr, elemAddr, BitVec.add_assoc] at h
  have h := congrArg BitVec.toNat ((BitVec.add_right_inj base).1 h)
  simp only [BitVec.toNat_add, BitVec.toNat_ofNat] at h
  have hi' : i * (W / 8) + W / 8 ≤ 2 ^ 32 := by simpa [Nat.add_mul] using hi
  have hk' : k * (W / 8) + W / 8 ≤ 2 ^ 32 := by simpa [Nat.add_mul] using hk
  have he : i * (W / 8) + j = k * (W / 8) + l := by omega
  rcases Nat.lt_or_gt_of_ne hne with h1 | h1
  · have : (i + 1) * (W / 8) ≤ k * (W / 8) := Nat.mul_le_mul_right _ h1
    rw [Nat.add_mul] at this
    omega
  · have : (k + 1) * (W / 8) ≤ i * (W / 8) := Nat.mul_le_mul_right _ h1
    rw [Nat.add_mul] at this
    omega

/-! ### The element steps of the blits -/

section steps
variable (op : Op) (W : Nat) (dst src : Word) (de se : Nat)

@[simp] theorem rmwElem_mem (M : BitVec W) (sh : Int) (b : Bus) :
    (rmwElem op W dst src de se M sh b).mem =
      b.mem.writeElem (elemAddr dst de W)
        (rmw op (b.mem.readElem (elemAddr dst de W) W) (b.mem.readElem (elemAddr src se W) W) M sh) := rfl

@[simp] theorem rmwElem_log (M : BitVec W) (sh : Int) (b : Bus) :
    (rmwElem op W dst src de se M sh b).log =
      b.log ++ [.srcRead (elemAddr src se W) (W / 8), .dstRead (elemAddr dst de W) (W / 8),
        .dstWrite (elemAddr dst de W) (W / 8)
          ((rmw op (b.mem.readElem (elemAddr dst de W) W) (b.mem.readElem (elemAddr src se W) W) M sh).setWidth 32)] := by
  simp [rmwElem]

@[simp] theorem copyElem_mem (b : Bus) :
    (copyElem W dst src de se b).mem =
      b.mem.writeElem (elemAddr dst de W) (b.mem.readElem (elemAddr src se W) W) := rfl

@[simp] theorem copyElem_log (b : Bus) :
    (copyElem W dst src de se b).log =
      b.log ++ [.srcRead (elemAddr src se W) (W / 8),
        .dstWrite (elemAddr dst de W) (W / 8) ((b.mem.readElem (elemAddr src se W) W).setWidth 32)] := by
  simp [copyElem]

/-- A fully covered element of the aligned path: bulk copy under COPY, a full-mask read-modify-write otherwise. -/
theorem alignedElem_eq (b : Bus) :
    alignedElem op W dst src de se b =
      if op = .copy then copyElem W dst src de se b
      else rmwElem op W dst src de se (BitVec.allOnes W) 0 b := by
  cases op <;> rfl

@[simp] theorem firstElem_held (p : Nat) (b : Bus) :
    (firstElem op W dst src de se p b).1 = b.mem.readElem (elemAddr src se W) W := rfl

@[simp] theorem firstElem_bus (p : Nat) (b : Bus) :
    (firstElem op W dst src de se p b).2 =
      rmwElem op W dst src de se (BitVec.allOnes W <<< p) (p : Int) b := rfl

/-- A later element with a high part: two transforms on one read of the destination, the current source element held. -/
theorem laterElem_high {p top : Nat} (h : p < top) (st : BitVec W × Bus) :
    laterElem op W dst src de se p top st =
      (st.2.mem.readElem (elemAddr src se W) W,
        dstWrite dst de
          (rmw op
            (rmw op (st.2.mem.readElem (elemAddr dst de W) W) st.1 (ones W (min p top)) (-((W : Int) - (p : Int))))
            (st.2.mem.readElem (elemAddr src se W) W) (ones W top &&& ~~~(ones W p)) (p : Int))
          (srcRead src W se (dstRead dst W de st.2).2).2) := by
  simp [laterElem, h]

/-- A later element without a high part: one transform, no source read, the held source element kept. -/
theorem laterElem_low {p top : Nat} (h : ¬ p < top) (st : BitVec W × Bus) :
    laterElem op W dst src de se p top st =
      (st.1, dstWrite dst de
        (rmw op (st.2.mem.readElem (elemAddr dst de W) W) st.1 (ones W (min p top)) (-((W : Int) - (p : Int))))
        (dstRead dst W de st.2).2) := by
  simp [laterElem, h]

end steps

/-! ### Replaying a record of accesses -/

theorem replay_append (m : Memory) (l l' : List BusAccess) : replay m (l ++ l') = replay (replay m l) l' := by
  induction l generalizing m with
  | nil => rfl
  | cons x l ih => cases x <;> exact ih _

/-- Replaying keeps the canonical form. -/
theorem replay_wf {m : Memory} (h : m.wf) (l : List BusAccess) : (replay m l).wf := by
  induction l generalizing m with
  | nil => exact h
  | cons x l ih =>
    cases x with
    | dstWrite a n v => exact ih (Memory.writeBytes_wf h a v.toNat n)
    | srcRead a n => exact ih h
    | dstRead a n => exact ih h

/-- A byte that no destination write of the record covers reads as before. -/
theorem read_replay_other (m : Memory) (l : List BusAccess) (x : Nat)
    (h : ∀ a n v, BusAccess.dstWrite a n v ∈ l → ∀ j < n, (byteAddr a j).toNat ≠ x) : (replay m l).read x = m.read x := by
  induction l generalizing m with
  | nil => rfl
  | cons y l ih =>
    have ih' := fun m => ih m fun a n v hv => h a n v (List.mem_cons_of_mem _ hv)
    cases y with
    | dstWrite a n v =>
      exact (ih' _).trans (Memory.read_writeBytes_other m a _ n x (h a n v (by simp)))
    | srcRead a n => exact ih' _
    | dstRead a n => exact ih' _

/-- What an access is does not depend on the value written: whether it completes is decided by its shape. -/
theorem completes_shape (holes : List Region) (x : BusAccess) : completes holes x.shape = completes holes x := by
  cases x <;> rfl

/-- Without holes every access completes (20_memory.md R71). -/
theorem completes_nil (x : BusAccess) : completes [] x = true := by
  simp [completes, backed]

end Sys2Proof.Machine
end

