-- ==== Sys2Proof/Laws/State.lean ====
section
/-! SUPPORT. Sys2Proof/Laws/State.lean: one lemma a field and update of State, each true by unfolding, so that no proof
unfolds a record update. -/

namespace Sys2Proof.Machine

@[simp] theorem State.refuse_cmd (s : State) (e : CfgErr) : (s.refuse e).cmd = s.cmd := rfl
@[simp] theorem State.refuse_status (s : State) (e : CfgErr) : (s.refuse e).status = s.status.record e := rfl
@[simp] theorem State.refuse_desc (s : State) (e : CfgErr) : (s.refuse e).desc = s.desc := rfl
@[simp] theorem State.refuse_res (s : State) (e : CfgErr) : (s.refuse e).res = s.res := rfl
@[simp] theorem State.refuse_mem (s : State) (e : CfgErr) : (s.refuse e).mem = s.mem := rfl
@[simp] theorem State.refuse_pending (s : State) (e : CfgErr) : (s.refuse e).pending = s.pending := rfl
@[simp] theorem State.refuse_reply (s : State) (e : CfgErr) : (s.refuse e).reply = s.reply := rfl
@[simp] theorem State.refuse_trace (s : State) (e : CfgErr) : (s.refuse e).trace = s.trace := rfl
@[simp] theorem State.refuse_holes (s : State) (e : CfgErr) : (s.refuse e).holes = s.holes := rfl

@[simp] theorem State.resetEngine_cmd (s : State) : (s.resetEngine).cmd = 0 := rfl
@[simp] theorem State.resetEngine_status (s : State) : (s.resetEngine).status = Status.clear := rfl
@[simp] theorem State.resetEngine_desc (s : State) : (s.resetEngine).desc = Descriptors.reset := rfl
@[simp] theorem State.resetEngine_res (s : State) : (s.resetEngine).res = 0 := rfl
@[simp] theorem State.resetEngine_mem (s : State) : (s.resetEngine).mem = s.mem := rfl
@[simp] theorem State.resetEngine_pending (s : State) : (s.resetEngine).pending = s.pending := rfl
@[simp] theorem State.resetEngine_reply (s : State) : (s.resetEngine).reply = none := rfl
@[simp] theorem State.resetEngine_trace (s : State) : (s.resetEngine).trace = [] := rfl
@[simp] theorem State.resetEngine_holes (s : State) : (s.resetEngine).holes = s.holes := rfl

@[simp] theorem State.take_cmd (s : State) (rest : List HostEvent) : (s.take rest).cmd = s.cmd := rfl
@[simp] theorem State.take_status (s : State) (rest : List HostEvent) : (s.take rest).status = s.status := rfl
@[simp] theorem State.take_desc (s : State) (rest : List HostEvent) : (s.take rest).desc = s.desc := rfl
@[simp] theorem State.take_res (s : State) (rest : List HostEvent) : (s.take rest).res = s.res := rfl
@[simp] theorem State.take_mem (s : State) (rest : List HostEvent) : (s.take rest).mem = s.mem := rfl
@[simp] theorem State.take_pending (s : State) (rest : List HostEvent) : (s.take rest).pending = rest := rfl
@[simp] theorem State.take_reply (s : State) (rest : List HostEvent) : (s.take rest).reply = none := rfl
@[simp] theorem State.take_trace (s : State) (rest : List HostEvent) : (s.take rest).trace = [] := rfl
@[simp] theorem State.take_holes (s : State) (rest : List HostEvent) : (s.take rest).holes = s.holes := rfl

@[simp] theorem State.withFetchWord_cmd (s : State) (nbits w : Nat) : (s.withFetchWord nbits w).cmd = s.cmd := rfl
@[simp] theorem State.withFetchWord_status (s : State) (nbits w : Nat) : (s.withFetchWord nbits w).status = s.status := rfl
@[simp] theorem State.withFetchWord_desc (s : State) (nbits w : Nat) : (s.withFetchWord nbits w).desc = s.desc := rfl
@[simp] theorem State.withFetchWord_res (s : State) (nbits w : Nat) : (s.withFetchWord nbits w).res = s.res := rfl
@[simp] theorem State.withFetchWord_mem (s : State) (nbits w : Nat) : (s.withFetchWord nbits w).mem = s.mem := rfl
@[simp] theorem State.withFetchWord_pending (s : State) (nbits w : Nat) : (s.withFetchWord nbits w).pending = .regWrite 0 4 (BitVec.ofNat 32 (w % 2 ^ nbits)) :: s.pending := rfl
@[simp] theorem State.withFetchWord_reply (s : State) (nbits w : Nat) : (s.withFetchWord nbits w).reply = s.reply := rfl
@[simp] theorem State.withFetchWord_trace (s : State) (nbits w : Nat) : (s.withFetchWord nbits w).trace = s.trace := rfl
@[simp] theorem State.withFetchWord_holes (s : State) (nbits w : Nat) : (s.withFetchWord nbits w).holes = s.holes := rfl

@[simp] theorem State.reset_cmd : State.reset.cmd = 0 := rfl
@[simp] theorem State.reset_status : State.reset.status = Status.clear := rfl
@[simp] theorem State.reset_desc : State.reset.desc = Descriptors.reset := rfl
@[simp] theorem State.reset_res : State.reset.res = 0 := rfl
@[simp] theorem State.reset_mem : State.reset.mem = [] := rfl
@[simp] theorem State.reset_pending : State.reset.pending = [] := rfl
@[simp] theorem State.reset_reply : State.reset.reply = none := rfl
@[simp] theorem State.reset_trace : State.reset.trace = [] := rfl
@[simp] theorem State.reset_holes : State.reset.holes = [] := rfl

@[simp] theorem State.setReg_res (s : State) (r : Reg) (v : Word) : (s.setReg r v).res = s.res := by
  cases r <;> rfl
@[simp] theorem State.setReg_mem (s : State) (r : Reg) (v : Word) : (s.setReg r v).mem = s.mem := by
  cases r <;> rfl
@[simp] theorem State.setReg_pending (s : State) (r : Reg) (v : Word) : (s.setReg r v).pending = s.pending := by
  cases r <;> rfl
@[simp] theorem State.setReg_reply (s : State) (r : Reg) (v : Word) : (s.setReg r v).reply = s.reply := by
  cases r <;> rfl
@[simp] theorem State.setReg_trace (s : State) (r : Reg) (v : Word) : (s.setReg r v).trace = s.trace := by
  cases r <;> rfl
@[simp] theorem State.setReg_holes (s : State) (r : Reg) (v : Word) : (s.setReg r v).holes = s.holes := by
  cases r <;> rfl

/-- A write of v to register r changes CMD only when r is CMD. -/
@[simp] theorem State.setReg_cmd (s : State) (r : Reg) (v : Word) :
    (s.setReg r v).cmd = if r = .cmd then v else s.cmd := by
  cases r <;> rfl

/-- A write of v to register r changes STATUS only when r is STATUS. -/
@[simp] theorem State.setReg_status (s : State) (r : Reg) (v : Word) :
    (s.setReg r v).status = if r = .status then s.status.write v else s.status := by
  cases r <;> rfl

/-- The register map: an offset names a register exactly when it is that register's (10_state.md R21). -/
theorem regAt_regOffset (r : Reg) : regAt (regOffset r) = some r := by
  cases r <;> rfl

/-- A host write at an absolute address of the block reaches the register at its offset (20_memory.md R62). -/
theorem busOffset_engineBase (off : Word) : busOffset (Config.engineBase + off) = off := by
  simp [busOffset, BitVec.add_comm Config.engineBase off]

end Sys2Proof.Machine
end

