-- ==== Sys2Proof/Laws/Commands.lean ====
section
/-! SUPPORT. Sys2Proof/Laws/Commands.lean: what the checks, each command, the port and a step can answer, said once. -/

namespace Sys2Proof.Machine

/-! ### The configuration checks -/

/-- A width code stands for 8, 16 or 32 bits. -/
theorem widthBits_cases {c : WidthCode} {W : Nat} (h : widthBits c = some W) : W = 8 ∨ W = 16 ∨ W = 32 := by
  cases c <;> simp [widthBits] at h <;> omega

theorem sameWidth_ok {wd ws : WidthCode} {W : Nat} : sameWidth wd ws = .ok W ↔ widthBits wd = some W ∧ ws = wd := by
  cases wd <;> cases ws <;> simp [sameWidth, widthBits]

theorem narrowWidths_ok {wd ws : WidthCode} {W : Nat × Nat} :
    narrowWidths wd ws = .ok W ↔ widthBits wd = some W.1 ∧ widthBits ws = some W.2 ∧ W.2 ≤ W.1 := by
  obtain ⟨Wd, Ws⟩ := W
  cases wd <;> cases ws <;> simp [narrowWidths, widthBits] <;> omega

theorem blit1dChecks_ok {d : Descriptors} {wd ws : WidthCode} {W : Nat} :
    blit1dChecks d wd ws = .ok W ↔
      sameWidth wd ws = .ok W ∧ misalignedBases d W W = false ∧ d.dstCap ≠ 0 := by
  unfold blit1dChecks
  cases h : sameWidth wd ws with
  | error e => simp
  | ok V =>
    constructor
    · intro hok
      dsimp only at hok
      split_ifs at hok with hm hc
      obtain rfl := Except.ok.inj hok
      exact ⟨rfl, by simpa using hm, hc⟩
    · rintro ⟨hV, hm, hc⟩
      obtain rfl := Except.ok.inj hV
      simp only [hm, if_neg hc, Bool.false_eq_true, if_false]

theorem blit2dChecks_ok {d : Descriptors} {wd ws : WidthCode} {W : Nat} :
    blit2dChecks d wd ws = .ok W ↔
      sameWidth wd ws = .ok W ∧ misalignedBases d W W = false ∧ d.dstCap ≠ 0 ∧ d.dstRows ≠ 0 := by
  unfold blit2dChecks
  cases h : sameWidth wd ws with
  | error e => simp
  | ok V =>
    constructor
    · intro hok
      dsimp only at hok
      split_ifs at hok with hm hc
      obtain rfl := Except.ok.inj hok
      exact ⟨rfl, by simpa using hm, not_or.1 hc⟩
    · rintro ⟨hV, hm, hc⟩
      obtain rfl := Except.ok.inj hV
      simp only [hm, if_neg (not_or.2 hc), Bool.false_eq_true, if_false]

theorem packChecks_ok {d : Descriptors} {wd ws : WidthCode} {W : Nat × Nat} :
    packChecks d wd ws = .ok W ↔
      narrowWidths wd ws = .ok W ∧ d.shift.toNat < W.2 ∧ misalignedBases d W.1 W.2 = false := by
  unfold packChecks
  cases h : narrowWidths wd ws with
  | error e => simp
  | ok V =>
    obtain ⟨Vd, Vs⟩ := V
    constructor
    · intro hok
      dsimp only at hok
      split_ifs at hok with hs hm
      obtain rfl := Except.ok.inj hok
      exact ⟨rfl, by simpa using hs, by simpa using hm⟩
    · rintro ⟨hV, hs, hm⟩
      obtain rfl := Except.ok.inj hV
      simp only [if_neg (Nat.not_le.2 hs), hm, Bool.false_eq_true, if_false]

/-- A well-formed RMW or PACK is one whose width checks pass (30_encoding.md R84). -/
theorem narrowSource_iff (wd ws : WidthCode) :
    (widthsDefined wd ws && narrowSource wd ws) = true ↔ ∃ W, narrowWidths wd ws = .ok W := by
  cases wd <;> cases ws <;> simp [widthsDefined, narrowSource, narrowWidths, widthBits]

/-- A well-formed blit is one whose width checks pass (30_encoding.md R84). -/
theorem equalWidths_iff (wd ws : WidthCode) :
    (widthsDefined wd ws && equalWidths wd ws) = true ↔ ∃ W, sameWidth wd ws = .ok W := by
  cases wd <;> cases ws <;> simp [widthsDefined, equalWidths, sameWidth, widthBits]

/-! ### A command -/

/-- A checked command that answers next s' was refused with the error found, or accepted. -/
theorem State.accept_next {α : Type} {s t : State} {checks : Except CfgErr α}
    {run : α → Host.Outcome State Fault Refusal} :
    s.accept checks run = .next t ↔ (∃ e, checks = .error e ∧ t = s.refuse e) ∨ ∃ a, checks = .ok a ∧ run a = .next t := by
  cases checks <;> simp [State.accept, eq_comm]

/-- A command on memory that answers next s' completed every access, and changed memory and the record alone. -/
theorem State.finish_next {s t : State} {run : Bus → Bus} :
    s.finish run = .next t ↔
      (∀ x ∈ (run ⟨s.mem, []⟩).log, completes s.holes x = true) ∧
        t = { s with mem := (run ⟨s.mem, []⟩).mem, trace := s.trace ++ (run ⟨s.mem, []⟩).log } := by
  unfold State.finish
  split
  · rename_i h
    simp only [Host.Outcome.next.injEq, List.all_eq_true] at h ⊢
    exact ⟨fun e => ⟨h, e.symm⟩, fun e => e.2.symm⟩
  · rename_i h
    simp only [List.all_eq_true] at h
    simp [h]

/-- A command on memory never refuses, and its one fault is an access that does not complete. -/
theorem State.finish_cases (s : State) (run : Bus → Bus) :
    (∃ t, s.finish run = .next t) ∨ s.finish run = .fault .accessNotCompleted := by
  unfold State.finish
  split <;> simp

theorem exec_rmw (op : Op) (wd ws : WidthCode) (s : State) : exec (.rmw op wd ws) s = rmwCommand op wd ws s := by
  cases op <;> rfl

theorem exec_blit1d (op : Op) (wd ws : WidthCode) (s : State) :
    exec (.blit1d op wd ws) s = blit1dCommand op wd ws s := by
  cases op <;> rfl

theorem exec_blit2d (op : Op) (wd ws : WidthCode) (s : State) :
    exec (.blit2d op wd ws) s = blit2dCommand op wd ws s := by
  cases op <;> rfl

theorem exec_blit2dp (op : Op) (wd ws : WidthCode) (s : State) :
    exec (.blit2dp op wd ws) s = blit2dpCommand op wd ws s := by
  cases op <;> rfl

theorem exec_pack (op : Op) (wd ws : WidthCode) (s : State) : exec (.pack op wd ws) s = packCommand op wd ws s := by
  cases op <;> rfl

/-- Every command is NOP or one of the five families with an operation. -/
theorem instr_family (i : Instr) :
    (∃ o wd ws, i = .nop o wd ws) ∨
      ∃ op wd ws, i = .rmw op wd ws ∨ i = .blit1d op wd ws ∨ i = .blit2d op wd ws ∨ i = .blit2dp op wd ws ∨
        i = .pack op wd ws := by
  cases i with
  | nop o wd ws => exact .inl ⟨o, wd, ws, rfl⟩
  | rmwCopy wd ws => exact .inr ⟨.copy, wd, ws, .inl rfl⟩
  | rmwInv wd ws => exact .inr ⟨.inv, wd, ws, .inl rfl⟩
  | rmwAnd wd ws => exact .inr ⟨.and, wd, ws, .inl rfl⟩
  | rmwOr wd ws => exact .inr ⟨.or, wd, ws, .inl rfl⟩
  | rmwXor wd ws => exact .inr ⟨.xor, wd, ws, .inl rfl⟩
  | blit1dCopy wd ws => exact .inr ⟨.copy, wd, ws, .inr (.inl rfl)⟩
  | blit1dInv wd ws => exact .inr ⟨.inv, wd, ws, .inr (.inl rfl)⟩
  | blit1dAnd wd ws => exact .inr ⟨.and, wd, ws, .inr (.inl rfl)⟩
  | blit1dOr wd ws => exact .inr ⟨.or, wd, ws, .inr (.inl rfl)⟩
  | blit1dXor wd ws => exact .inr ⟨.xor, wd, ws, .inr (.inl rfl)⟩
  | blit2dCopy wd ws => exact .inr ⟨.copy, wd, ws, .inr (.inr (.inl rfl))⟩
  | blit2dInv wd ws => exact .inr ⟨.inv, wd, ws, .inr (.inr (.inl rfl))⟩
  | blit2dAnd wd ws => exact .inr ⟨.and, wd, ws, .inr (.inr (.inl rfl))⟩
  | blit2dOr wd ws => exact .inr ⟨.or, wd, ws, .inr (.inr (.inl rfl))⟩
  | blit2dXor wd ws => exact .inr ⟨.xor, wd, ws, .inr (.inr (.inl rfl))⟩
  | blit2dpCopy wd ws => exact .inr ⟨.copy, wd, ws, .inr (.inr (.inr (.inl rfl)))⟩
  | blit2dpInv wd ws => exact .inr ⟨.inv, wd, ws, .inr (.inr (.inr (.inl rfl)))⟩
  | blit2dpAnd wd ws => exact .inr ⟨.and, wd, ws, .inr (.inr (.inr (.inl rfl)))⟩
  | blit2dpOr wd ws => exact .inr ⟨.or, wd, ws, .inr (.inr (.inr (.inl rfl)))⟩
  | blit2dpXor wd ws => exact .inr ⟨.xor, wd, ws, .inr (.inr (.inr (.inl rfl)))⟩
  | packCopy wd ws => exact .inr ⟨.copy, wd, ws, .inr (.inr (.inr (.inr rfl)))⟩
  | packInv wd ws => exact .inr ⟨.inv, wd, ws, .inr (.inr (.inr (.inr rfl)))⟩
  | packAnd wd ws => exact .inr ⟨.and, wd, ws, .inr (.inr (.inr (.inr rfl)))⟩
  | packOr wd ws => exact .inr ⟨.or, wd, ws, .inr (.inr (.inr (.inr rfl)))⟩
  | packXor wd ws => exact .inr ⟨.xor, wd, ws, .inr (.inr (.inr (.inr rfl)))⟩

/-- The memory work of an accepted command of the four families that reach memory. -/
inductive MemoryRun (d : Descriptors) : (Bus → Bus) → Prop
  | blit1d (op : Op) (W : Nat) : blit1dChecks d wd ws = .ok W → MemoryRun d (blit1dRun op W d)
  | blit2d (op : Op) (W : Nat) : blit2dChecks d wd ws = .ok W → MemoryRun d (blit2dRun op W d)
  | blit2dp (op : Op) (W : Nat) : blit2dChecks d wd ws = .ok W → MemoryRun d (blit2dpRun op W d)
  | pack (op : Op) (W : Nat × Nat) : packChecks d wd ws = .ok W → MemoryRun d (packRun op W.1 W.2 d)

/-- All a command can do: NOP and RMW write at most RES, a refused command only STATUS, the others run on memory. -/
theorem exec_cases (i : Instr) (s : State) :
    exec i s = .next s ∨ (∃ e, exec i s = .next (s.refuse e)) ∨ (∃ v, exec i s = .next { s with res := v }) ∨
      ∃ run, MemoryRun s.desc run ∧ exec i s = s.finish run := by
  rcases instr_family i with ⟨o, wd, ws, rfl⟩ | ⟨op, wd, ws, rfl | rfl | rfl | rfl | rfl⟩
  · exact .inl rfl
  · rw [exec_rmw, rmwCommand]
    cases narrowWidths wd ws with
    | error e => exact .inr (.inl ⟨e, rfl⟩)
    | ok W => exact .inr (.inr (.inl ⟨_, rfl⟩))
  · rw [exec_blit1d, blit1dCommand]
    cases h : blit1dChecks s.desc wd ws with
    | error e => exact .inr (.inl ⟨e, rfl⟩)
    | ok W => exact .inr (.inr (.inr ⟨_, .blit1d op W h, rfl⟩))
  · rw [exec_blit2d, blit2dCommand]
    cases h : blit2dChecks s.desc wd ws with
    | error e => exact .inr (.inl ⟨e, rfl⟩)
    | ok W => exact .inr (.inr (.inr ⟨_, .blit2d op W h, rfl⟩))
  · rw [exec_blit2dp, blit2dpCommand]
    cases h : blit2dChecks s.desc wd ws with
    | error e => exact .inr (.inl ⟨e, rfl⟩)
    | ok W => exact .inr (.inr (.inr ⟨_, .blit2dp op W h, rfl⟩))
  · rw [exec_pack, packCommand]
    cases h : packChecks s.desc wd ws with
    | error e => exact .inr (.inl ⟨e, rfl⟩)
    | ok W => exact .inr (.inr (.inr ⟨_, .pack op W h, rfl⟩))

/-! ### The port and a step -/

/-- A step with no event pending changes nothing; else it serves the oldest event. -/
theorem step_nil {s : State} (h : s.pending = []) : step s = .next s := by
  simp [step, h]

theorem step_cons {s : State} {e : HostEvent} {rest : List HostEvent} (h : s.pending = e :: rest) :
    step s = (s.take rest).serve e := by
  simp [step, h]

/-- A write of a word to CMD: the write of register CMD at offset 0. -/
theorem serve_cmd (s : State) (v : Word) : s.serve (.regWrite 0 4 v) = s.runWord v := rfl

/-- A write to a register other than CMD takes or ignores the value and starts nothing. -/
theorem writeReg_of_ne_cmd (s : State) {r : Reg} (h : r ≠ .cmd) (v : Word) : s.writeReg r v = .next (s.setReg r v) := by
  cases r <;> first | rfl | exact absurd rfl h

/-- A write to CMD (10_state.md R25): refused by the decoder, or exec of the command, with CMD holding the word. -/
theorem State.runWord_error {s : State} {v : Word} {e : CfgErr} (h : decode v = .error e) :
    s.runWord v = .next ({ s with cmd := v }.refuse e) := by
  simp [State.runWord, h]

theorem State.runWord_ok {s : State} {v : Word} {i : Instr} (h : decode v = .ok i) :
    s.runWord v = exec i { s with cmd := v } := by
  simp [State.runWord, h]

/-- STATUS after a refusal (10_state.md R29): kept when CFGERR was 1, else CFGERR and the code. -/
theorem Status.record_of_set {st : Status} (h : st.cfgErr = true) (e : CfgErr) : st.record e = st := by
  simp [Status.record, h]

theorem Status.record_of_clear {st : Status} (h : st.cfgErr = false) (e : CfgErr) :
    st.record e = { cfgErr := true, errCode := errorCode e } := by
  simp [Status.record, h]

/-- The codes are 1 to 8 (60_exceptions.md R211). -/
theorem errorCode_range (e : CfgErr) : 1 ≤ (errorCode e).toNat ∧ (errorCode e).toNat ≤ 8 := by
  cases e <;> decide

/-- The host's own access to a byte goes on exactly when the address has memory behind it. -/
theorem State.hostMemory_next {s t u : State} {a : Word} :
    s.hostMemory a t = .next u ↔ backed s.holes a = true ∧ u = t := by
  unfold State.hostMemory
  split <;> rename_i h <;> simp [h]
  exact eq_comm

/-- Reset during a command that answers next t without holes: the performed accesses are replayed if they complete. -/
theorem State.resetDuring_eq {s t : State} {v : Word} (k : Nat)
    (h : ({ s with holes := [], trace := [] } : State).runWord v = .next t) :
    s.resetDuring v k =
      if (t.trace.take k).all (completes s.holes) then
        .next { s.resetEngine with mem := replay s.mem (t.trace.take k), trace := t.trace.take k }
      else .fault .accessNotCompleted := by
  simp [State.resetDuring, h]

/-- The port serves exactly the registers at their offsets, as whole words. -/
theorem portReg_regOffset (r : Reg) : portReg (regOffset r) 4 = some r := by
  simp [portReg, regAt_regOffset]

end Sys2Proof.Machine
end

