-- ==== Sys2Proof/Laws/Geometry.lean ====
section
/-! SUPPORT. Sys2Proof/Laws/Geometry.lean: the masks, the clipping and the case selection of the blits, said once. -/

namespace Sys2Proof.Machine

/-- Bit k of ones(n) is set exactly below n (00_scope.md section 5). -/
theorem ones_getLsbD (W n k : Nat) : (ones W n).getLsbD k = (decide (k < W) && decide (k < n)) := by
  simp [ones, BitVec.getLsbD_ofNat, Nat.testBit_two_pow_sub_one]

/-- A run that is not empty starts below the capacity, is no longer than asked, and ends within the capacity
(41_blit1d.md R122). -/
theorem clip1d_pos {cap off len W : Nat} (h : clip1d cap off len W ≠ 0) :
    off / W < cap ∧ 0 < len ∧ clip1d cap off len W ≤ len ∧ off + clip1d cap off len W ≤ cap * W := by
  have hc : ¬ cap ≤ off / W := fun hc => h (if_pos hc)
  rw [clip1d, if_neg hc] at h ⊢
  have hlt : off / W < cap := Nat.not_le.1 hc
  have hoff := Nat.div_add_mod off W
  have hle : (off / W) * W ≤ cap * W := Nat.mul_le_mul_right _ hlt.le
  rw [Nat.mul_comm] at hoff
  have hsub : (cap - off / W) * W = cap * W - off / W * W := Nat.sub_mul _ _ _
  refine ⟨hlt, ?_, min_le_left _ _, ?_⟩ <;> omega

/-- What is left of a side of a rectangle lies below the bound and is no more than asked (42_blit2d.md R151). -/
theorem clipSide_pos {start size bound : Nat} (h : clipSide start size bound ≠ 0) :
    start < bound ∧ clipSide start size bound ≤ size ∧ start + clipSide start size bound ≤ bound := by
  have hs : start < bound := by
    by_contra hn
    exact h (if_neg hn)
  rw [clipSide, if_pos hs] at h ⊢
  refine ⟨hs, min_le_left _ _, ?_⟩
  omega

/-- The clamp inside Blit1D never shortens a clipped row (42_blit2d.md R154). -/
theorem clip1d_clipSide {stride X w W : Nat} (hW : 0 < W) (h : clipSide X w (stride * W) ≠ 0) :
    clip1d stride X (clipSide X w (stride * W)) W = clipSide X w (stride * W) := by
  obtain ⟨hX, -, hend⟩ := clipSide_pos h
  have hlt : X / W < stride := (Nat.div_lt_iff_lt_mul hW).2 hX
  have hdm := Nat.div_add_mod X W
  rw [Nat.mul_comm] at hdm
  have hsub : (stride - X / W) * W = stride * W - X / W * W := Nat.sub_mul _ _ _
  rw [clip1d, if_neg (by omega), min_eq_left]
  omega

section cases
variable {op : Op} {W : Nat} {dst src : Word} {dbase cap off sbase len : Nat} {b : Bus}

/-- An empty run does nothing (41_blit1d.md R123). -/
theorem blit1d_empty (h : clip1d cap off len W = 0) : blit1d op W dst src dbase cap off sbase len b = b := by
  simp [blit1d, h]

/-- The sub-element case (41_blit1d.md R125). -/
theorem blit1d_subElement (h : clip1d cap off len W ≠ 0) (hs : off % W + clip1d cap off len W ≤ W) :
    blit1d op W dst src dbase cap off sbase len b =
      rmwElem op W dst src (dbase + off / W) sbase (ones W (clip1d cap off len W) <<< (off % W)) ((off % W : Nat) : Int)
        b := by
  simp [blit1d, h, hs]

/-- The aligned case (41_blit1d.md R126). -/
theorem blit1d_aligned (h : clip1d cap off len W ≠ 0) (hs : ¬ off % W + clip1d cap off len W ≤ W) (hp : off % W = 0) :
    blit1d op W dst src dbase cap off sbase len b =
      alignedPath op W dst src (dbase + off / W) sbase (clip1d cap off len W) b := by
  simp only [blit1d, if_neg h, if_neg hs, if_pos hp]

/-- The unaligned case (41_blit1d.md R127 to R129). -/
theorem blit1d_unaligned (h : clip1d cap off len W ≠ 0) (hs : ¬ off % W + clip1d cap off len W ≤ W)
    (hp : off % W ≠ 0) :
    blit1d op W dst src dbase cap off sbase len b =
      unalignedPath op W dst src (dbase + off / W) sbase (off % W) (clip1d cap off len W) b := by
  simp only [blit1d, if_neg h, if_neg hs, if_neg hp]

end cases

section pixel
variable (op : Op) (W : Nat) (d : Descriptors) (g : Rect) (r x : Nat) (b : Bus)

/-- The destination element of a pixel step before and after (42_blit2d.md R155): one bit replaced by the table. -/
theorem pixelStep_mem :
    (pixelStep op W d g r x b).mem =
      b.mem.writeElem (elemAddr d.dstBase ((g.Y + r) * g.stride + (g.X + x) / W) W)
        ((b.mem.readElem (elemAddr d.dstBase ((g.Y + r) * g.stride + (g.X + x) / W) W) W &&& ~~~(1#W <<< ((g.X + x) % W))) |||
          ((BitVec.ofBool
              (opBit op
                ((b.mem.readElem (elemAddr d.dstBase ((g.Y + r) * g.stride + (g.X + x) / W) W) W).getLsbD ((g.X + x) % W))
                ((b.mem.readElem (elemAddr d.srcBase (r * g.pitch + x / W) W) W).getLsbD (x % W)))).setWidth W <<<
            ((g.X + x) % W))) := rfl

end pixel

section pack
variable {op : Op} {Wd Ws : Nat} {src : Word} {s N k : Nat} {h : PackHeld Wd Ws}

/-- A slot with a carry (43_pack.md R183, R184): both transforms, the next source element read and kept. -/
theorem packSlot_carry (hs : s ≠ 0) :
    packSlot op Wd Ws src s N k h =
      { d := rmw op
          (rmw op h.d h.cur (((BitVec.allOnes Ws <<< s).setWidth Wd) <<< (Wd - (k + 1) * Ws))
            ((Wd - (k + 1) * Ws + s : Nat) : Int))
          (h.bus.mem.readElem (elemAddr src (k + 1) Ws) Ws) (ones Wd s <<< (Wd - (k + 1) * Ws))
          (packCarryShift (Wd - (k + 1) * Ws) Ws s)
        cur := h.bus.mem.readElem (elemAddr src (k + 1) Ws) Ws
        bus := (srcRead src Ws (k + 1) h.bus).2 } := by
  simp [packSlot, hs, srcRead]

/-- A slot without a carry (43_pack.md R183), followed by another: the next source element is read. -/
theorem packSlot_plain (hk : k + 1 ≤ N - 1) :
    packSlot op Wd Ws src 0 N k h =
      { d := rmw op h.d h.cur (((BitVec.allOnes Ws <<< 0).setWidth Wd) <<< (Wd - (k + 1) * Ws))
          ((Wd - (k + 1) * Ws + 0 : Nat) : Int)
        cur := h.bus.mem.readElem (elemAddr src (k + 1) Ws) Ws
        bus := (srcRead src Ws (k + 1) h.bus).2 } := by
  simp [packSlot, hk, srcRead]

/-- The last slot without a carry: nothing more is read. -/
theorem packSlot_last (hk : ¬ k + 1 ≤ N - 1) :
    packSlot op Wd Ws src 0 N k h =
      { h with
        d := rmw op h.d h.cur (((BitVec.allOnes Ws <<< 0).setWidth Wd) <<< (Wd - (k + 1) * Ws))
          ((Wd - (k + 1) * Ws + 0 : Nat) : Int) } := by
  simp [packSlot, hk]

end pack

end Sys2Proof.Machine
end

