-- ==== Sys2Proof/Laws/PerInstr.lean ====
section
/-! SUPPORT. Sys2Proof/Laws/PerInstr.lean: for each instruction, its encoding against the match and mask of its row of
spec/opcode_table.json (30_encoding.md R86), whatever its fields hold. -/

namespace Sys2Proof.Laws.TableRow

/-- (match, mask) of the opcode table's row of a command (30_encoding.md R86). -/
def row : Instr → Word × Word
  | .nop _ _ _ => (0x00000000, 0xFFFFF08F)
  | .rmwCopy _ _ => (0x00000001, 0xFFFFF0FF)
  | .rmwInv _ _ => (0x00000011, 0xFFFFF0FF)
  | .rmwAnd _ _ => (0x00000021, 0xFFFFF0FF)
  | .rmwOr _ _ => (0x00000031, 0xFFFFF0FF)
  | .rmwXor _ _ => (0x00000041, 0xFFFFF0FF)
  | .blit1dCopy _ _ => (0x00000002, 0xFFFFF0FF)
  | .blit1dInv _ _ => (0x00000012, 0xFFFFF0FF)
  | .blit1dAnd _ _ => (0x00000022, 0xFFFFF0FF)
  | .blit1dOr _ _ => (0x00000032, 0xFFFFF0FF)
  | .blit1dXor _ _ => (0x00000042, 0xFFFFF0FF)
  | .blit2dCopy _ _ => (0x00000003, 0xFFFFF0FF)
  | .blit2dInv _ _ => (0x00000013, 0xFFFFF0FF)
  | .blit2dAnd _ _ => (0x00000023, 0xFFFFF0FF)
  | .blit2dOr _ _ => (0x00000033, 0xFFFFF0FF)
  | .blit2dXor _ _ => (0x00000043, 0xFFFFF0FF)
  | .blit2dpCopy _ _ => (0x00000004, 0xFFFFF0FF)
  | .blit2dpInv _ _ => (0x00000014, 0xFFFFF0FF)
  | .blit2dpAnd _ _ => (0x00000024, 0xFFFFF0FF)
  | .blit2dpOr _ _ => (0x00000034, 0xFFFFF0FF)
  | .blit2dpXor _ _ => (0x00000044, 0xFFFFF0FF)
  | .packCopy _ _ => (0x00000005, 0xFFFFF0FF)
  | .packInv _ _ => (0x00000015, 0xFFFFF0FF)
  | .packAnd _ _ => (0x00000025, 0xFFFFF0FF)
  | .packOr _ _ => (0x00000035, 0xFFFFF0FF)
  | .packXor _ _ => (0x00000045, 0xFFFFF0FF)

/-- The command's word matches its row: the bits of the mask are those of the match. -/
def Statement (i : Instr) : Prop := encode i &&& (row i).2 = (row i).1

theorem nop (op : BitVec 3) (wd ws : WidthCode) : Statement (.nop op wd ws) := by
  revert op; cases wd <;> cases ws <;> unfold Statement <;> decide
theorem rmwCopy (wd ws : WidthCode) : Statement (.rmwCopy wd ws) := by
  cases wd <;> cases ws <;> rfl
theorem rmwInv (wd ws : WidthCode) : Statement (.rmwInv wd ws) := by
  cases wd <;> cases ws <;> rfl
theorem rmwAnd (wd ws : WidthCode) : Statement (.rmwAnd wd ws) := by
  cases wd <;> cases ws <;> rfl
theorem rmwOr (wd ws : WidthCode) : Statement (.rmwOr wd ws) := by
  cases wd <;> cases ws <;> rfl
theorem rmwXor (wd ws : WidthCode) : Statement (.rmwXor wd ws) := by
  cases wd <;> cases ws <;> rfl
theorem blit1dCopy (wd ws : WidthCode) : Statement (.blit1dCopy wd ws) := by
  cases wd <;> cases ws <;> rfl
theorem blit1dInv (wd ws : WidthCode) : Statement (.blit1dInv wd ws) := by
  cases wd <;> cases ws <;> rfl
theorem blit1dAnd (wd ws : WidthCode) : Statement (.blit1dAnd wd ws) := by
  cases wd <;> cases ws <;> rfl
theorem blit1dOr (wd ws : WidthCode) : Statement (.blit1dOr wd ws) := by
  cases wd <;> cases ws <;> rfl
theorem blit1dXor (wd ws : WidthCode) : Statement (.blit1dXor wd ws) := by
  cases wd <;> cases ws <;> rfl
theorem blit2dCopy (wd ws : WidthCode) : Statement (.blit2dCopy wd ws) := by
  cases wd <;> cases ws <;> rfl
theorem blit2dInv (wd ws : WidthCode) : Statement (.blit2dInv wd ws) := by
  cases wd <;> cases ws <;> rfl
theorem blit2dAnd (wd ws : WidthCode) : Statement (.blit2dAnd wd ws) := by
  cases wd <;> cases ws <;> rfl
theorem blit2dOr (wd ws : WidthCode) : Statement (.blit2dOr wd ws) := by
  cases wd <;> cases ws <;> rfl
theorem blit2dXor (wd ws : WidthCode) : Statement (.blit2dXor wd ws) := by
  cases wd <;> cases ws <;> rfl
theorem blit2dpCopy (wd ws : WidthCode) : Statement (.blit2dpCopy wd ws) := by
  cases wd <;> cases ws <;> rfl
theorem blit2dpInv (wd ws : WidthCode) : Statement (.blit2dpInv wd ws) := by
  cases wd <;> cases ws <;> rfl
theorem blit2dpAnd (wd ws : WidthCode) : Statement (.blit2dpAnd wd ws) := by
  cases wd <;> cases ws <;> rfl
theorem blit2dpOr (wd ws : WidthCode) : Statement (.blit2dpOr wd ws) := by
  cases wd <;> cases ws <;> rfl
theorem blit2dpXor (wd ws : WidthCode) : Statement (.blit2dpXor wd ws) := by
  cases wd <;> cases ws <;> rfl
theorem packCopy (wd ws : WidthCode) : Statement (.packCopy wd ws) := by
  cases wd <;> cases ws <;> rfl
theorem packInv (wd ws : WidthCode) : Statement (.packInv wd ws) := by
  cases wd <;> cases ws <;> rfl
theorem packAnd (wd ws : WidthCode) : Statement (.packAnd wd ws) := by
  cases wd <;> cases ws <;> rfl
theorem packOr (wd ws : WidthCode) : Statement (.packOr wd ws) := by
  cases wd <;> cases ws <;> rfl
theorem packXor (wd ws : WidthCode) : Statement (.packXor wd ws) := by
  cases wd <;> cases ws <;> rfl

end Sys2Proof.Laws.TableRow
end

