-- ==== Sys2Proof/Tests/Slice0.lean ====
section
/-! SUPPORT. Sys2Proof/Tests/Slice0.lean: words decoded, ill-formed terms refused, one-step tests on the vectors of
95_test_vectors.md, and a witness for the hypotheses of every statement that has some. -/

namespace Sys2Proof.Tests

open Sys2Proof.Machine

/-! ### WellFormed: an ill-formed term for each check (30_encoding.md R84) -/

theorem test_wf_rejects_reserved_wd : (Instr.rmwCopy .reserved .w8).wellFormed = false := by decide
theorem test_wf_rejects_reserved_ws : (Instr.blit1dInv .w8 .reserved).wellFormed = false := by decide
theorem test_wf_rejects_reserved_both : (Instr.blit2dAnd .reserved .reserved).wellFormed = false := by decide
theorem test_wf_rejects_unequal_blit : (Instr.blit2dpOr .w16 .w8).wellFormed = false := by decide
theorem test_wf_rejects_wide_rmw_source : (Instr.rmwXor .w8 .w16).wellFormed = false := by decide
theorem test_wf_rejects_wide_pack_source : (Instr.packXor .w16 .w32).wellFormed = false := by decide
theorem test_wf_accepts_legal :
    (Instr.packCopy .w32 .w8).wellFormed = true ∧ (Instr.blit1dCopy .w16 .w16).wellFormed = true ∧
      (Instr.nop 7 .reserved .reserved).wellFormed = true := by decide

/-! ### Decoding: a word of each command written out from 30_encoding.md R81 to R84
(31:12 zero, WS, WD, 0, OP, FUNC) -/

theorem test_decode_nop : decode 0b00000000000000000000_11_11_0_111_0000 = .ok (.nop 7 .reserved .reserved) := by decide
theorem test_decode_rmwCopy :
    decode 0b00000000000000000000_01_00_0_000_0001 = .ok (.rmwCopy .w8 .w16) := by decide
theorem test_decode_rmwInv :
    decode 0b00000000000000000000_01_01_0_001_0001 = .ok (.rmwInv .w16 .w16) := by decide
theorem test_decode_rmwAnd :
    decode 0b00000000000000000000_10_10_0_010_0001 = .ok (.rmwAnd .w32 .w32) := by decide
theorem test_decode_rmwOr :
    decode 0b00000000000000000000_10_11_0_011_0001 = .ok (.rmwOr .reserved .w32) := by decide
theorem test_decode_rmwXor :
    decode 0b00000000000000000000_11_00_0_100_0001 = .ok (.rmwXor .w8 .reserved) := by decide
theorem test_decode_blit1dCopy :
    decode 0b00000000000000000000_11_01_0_000_0010 = .ok (.blit1dCopy .w16 .reserved) := by decide
theorem test_decode_blit1dInv :
    decode 0b00000000000000000000_00_10_0_001_0010 = .ok (.blit1dInv .w32 .w8) := by decide
theorem test_decode_blit1dAnd :
    decode 0b00000000000000000000_00_11_0_010_0010 = .ok (.blit1dAnd .reserved .w8) := by decide
theorem test_decode_blit1dOr :
    decode 0b00000000000000000000_01_00_0_011_0010 = .ok (.blit1dOr .w8 .w16) := by decide
theorem test_decode_blit1dXor :
    decode 0b00000000000000000000_01_01_0_100_0010 = .ok (.blit1dXor .w16 .w16) := by decide
theorem test_decode_blit2dCopy :
    decode 0b00000000000000000000_10_10_0_000_0011 = .ok (.blit2dCopy .w32 .w32) := by decide
theorem test_decode_blit2dInv :
    decode 0b00000000000000000000_10_11_0_001_0011 = .ok (.blit2dInv .reserved .w32) := by decide
theorem test_decode_blit2dAnd :
    decode 0b00000000000000000000_11_00_0_010_0011 = .ok (.blit2dAnd .w8 .reserved) := by decide
theorem test_decode_blit2dOr :
    decode 0b00000000000000000000_11_01_0_011_0011 = .ok (.blit2dOr .w16 .reserved) := by decide
theorem test_decode_blit2dXor :
    decode 0b00000000000000000000_00_10_0_100_0011 = .ok (.blit2dXor .w32 .w8) := by decide
theorem test_decode_blit2dpCopy :
    decode 0b00000000000000000000_00_11_0_000_0100 = .ok (.blit2dpCopy .reserved .w8) := by decide
theorem test_decode_blit2dpInv :
    decode 0b00000000000000000000_01_00_0_001_0100 = .ok (.blit2dpInv .w8 .w16) := by decide
theorem test_decode_blit2dpAnd :
    decode 0b00000000000000000000_01_01_0_010_0100 = .ok (.blit2dpAnd .w16 .w16) := by decide
theorem test_decode_blit2dpOr :
    decode 0b00000000000000000000_10_10_0_011_0100 = .ok (.blit2dpOr .w32 .w32) := by decide
theorem test_decode_blit2dpXor :
    decode 0b00000000000000000000_10_11_0_100_0100 = .ok (.blit2dpXor .reserved .w32) := by decide
theorem test_decode_packCopy :
    decode 0b00000000000000000000_11_00_0_000_0101 = .ok (.packCopy .w8 .reserved) := by decide
theorem test_decode_packInv :
    decode 0b00000000000000000000_11_01_0_001_0101 = .ok (.packInv .w16 .reserved) := by decide
theorem test_decode_packAnd :
    decode 0b00000000000000000000_00_10_0_010_0101 = .ok (.packAnd .w32 .w8) := by decide
theorem test_decode_packOr :
    decode 0b00000000000000000000_00_11_0_011_0101 = .ok (.packOr .reserved .w8) := by decide
theorem test_decode_packXor :
    decode 0b00000000000000000000_01_00_0_100_0101 = .ok (.packXor .w8 .w16) := by decide

theorem test_decode_rejects_bit7 : decode 0x00000080 = .error .rsvdBits := by decide
theorem test_decode_rejects_bit7_before_func : decode 0x00000086 = .error .rsvdBits := by decide
theorem test_decode_rejects_high_bits : decode 0x00001000 = .error .rsvdBits ∧ decode 0x80000002 = .error .rsvdBits := by
  decide
theorem test_decode_rejects_func :
    decode 0x00000006 = .error .illFunc ∧ decode 0x0000000F = .error .illFunc ∧ decode 0x00000356 = .error .illFunc := by
  decide
theorem test_decode_rejects_op : decode 0x00000051 = .error .illOp ∧ decode 0x00000071 = .error .illOp := by decide
theorem test_table_word : decodeTableWord 32 0x533 = some (.blit2dOr .w16 .w16) ∧ decodeTableWord 32 6 = none := by
  decide

/-! ### One command, on the vectors of 95_test_vectors.md -/

/-- The next state, where there is one. -/
def got (o : Host.Outcome State Fault Refusal) : Option State :=
  match o with
  | .next t => some t
  | _ => none

/-- A state with these descriptors and this memory, else as after reset. -/
def onMem (d : Descriptors) (m : Memory) : State := { State.reset with desc := d, mem := m }

/-- The memory, or RES, or STATUS as a word, after a command. -/
def memAfter (i : Instr) (s : State) : Option Memory := (got (exec i s)).map (·.mem)
def resAfter (i : Instr) (s : State) : Option Word := (got (exec i s)).map (·.res)
def traceAfter (i : Instr) (s : State) : Option (List BusAccess) := (got (exec i s)).map (·.trace)

/-- STATUS after a word is written to CMD. -/
def statusAfter (d : Descriptors) (w : Word) : Option Word :=
  (got (step { State.reset with desc := d, pending := [.regWrite 0 4 w] })).map (·.status.word)

theorem test_nop : exec (.nop 7 .reserved .reserved) State.reset = .next State.reset := rfl

/-- RMW operands (95_test_vectors.md 2.1). -/
def rmwRegs (D S M sh : Word) : State := onMem { Descriptors.reset with opa := D, opb := S, mask := M, shift := sh } []

theorem test_rmwCopy_narrow_source : resAfter (.rmwCopy .w16 .w8) (rmwRegs 0x1234 0xAB 0xFF00 8) = some 0xAB34 := by decide
theorem test_rmwInv_narrow_source : resAfter (.rmwInv .w16 .w8) (rmwRegs 0x1234 0xAB 0xFF00 8) = some 0x5434 := by decide
theorem test_rmwAnd_narrow_source : resAfter (.rmwAnd .w16 .w8) (rmwRegs 0x1234 0xAB 0xFF00 8) = some 0x0234 := by decide
theorem test_rmwOr_narrow_source : resAfter (.rmwOr .w16 .w8) (rmwRegs 0x1234 0xAB 0xFF00 8) = some 0xBB34 := by decide
theorem test_rmwXor_narrow_source : resAfter (.rmwXor .w16 .w8) (rmwRegs 0x1234 0xAB 0xFF00 8) = some 0xB934 := by decide
theorem test_rmwCopy_shift_all_out : resAfter (.rmwCopy .w8 .w8) (rmwRegs 0xFFFFFF5A 0xFF 0xFF 0x80000000) = some 0x00 := by decide
theorem test_rmwInv_shift_all_out : resAfter (.rmwInv .w8 .w8) (rmwRegs 0xFFFFFF5A 0xFF 0xFF 0x80000000) = some 0xFF := by decide
theorem test_rmwAnd_shift_all_out : resAfter (.rmwAnd .w8 .w8) (rmwRegs 0xFFFFFF5A 0xFF 0xFF 0x80000000) = some 0x00 := by decide
theorem test_rmwOr_shift_all_out : resAfter (.rmwOr .w8 .w8) (rmwRegs 0xFFFFFF5A 0xFF 0xFF 0x80000000) = some 0x5A := by decide
theorem test_rmwXor_shift_all_out : resAfter (.rmwXor .w8 .w8) (rmwRegs 0xFFFFFF5A 0xFF 0xFF 0x80000000) = some 0x5A := by decide

/-- L-N1f: unaligned, three destination elements (95_test_vectors.md 2.2). -/
def ln1f : State :=
  onMem { Descriptors.reset with dstBase := 0x20000000, dstCap := 4, dstX := 5, srcBase := 0x20000100, srcW := 14 }
    [(0x20000000, 0xFF), (0x20000001, 0xFF), (0x20000002, 0xFF), (0x20000003, 0xFF), (0x20000100, 0xD3), (0x20000101, 0x2E)]

/-- L-A1: aligned with a tail (95_test_vectors.md 2.2). -/
def la1 : State :=
  onMem { Descriptors.reset with dstBase := 0x20000000, dstCap := 4, dstX := 8, srcBase := 0x20000100, srcW := 19 }
    [(0x20000000, 0x11), (0x20000001, 0x22), (0x20000002, 0x33), (0x20000003, 0x44), (0x20000100, 0xAB), (0x20000101, 0xCD), (0x20000102, 0xF5)]

theorem test_blit1dCopy_ln1f :
    memAfter (.blit1dCopy .w8 .w8) ln1f =
      some [(0x20000000, 0x7F), (0x20000001, 0xDA), (0x20000002, 0xFD), (0x20000003, 0xFF), (0x20000100, 0xD3), (0x20000101, 0x2E)] := by decide
theorem test_blit1dInv_ln1f :
    memAfter (.blit1dInv .w8 .w8) ln1f =
      some [(0x20000000, 0x9F), (0x20000001, 0x25), (0x20000002, 0xFA), (0x20000003, 0xFF), (0x20000100, 0xD3), (0x20000101, 0x2E)] := by decide
theorem test_blit1dAnd_ln1f :
    memAfter (.blit1dAnd .w8 .w8) ln1f =
      some [(0x20000000, 0x7F), (0x20000001, 0xDA), (0x20000002, 0xFD), (0x20000003, 0xFF), (0x20000100, 0xD3), (0x20000101, 0x2E)] := by decide
theorem test_blit1dOr_ln1f :
    memAfter (.blit1dOr .w8 .w8) ln1f =
      some [(0x20000000, 0xFF), (0x20000001, 0xFF), (0x20000002, 0xFF), (0x20000003, 0xFF), (0x20000100, 0xD3), (0x20000101, 0x2E)] := by decide
theorem test_blit1dXor_ln1f :
    memAfter (.blit1dXor .w8 .w8) ln1f =
      some [(0x20000000, 0x9F), (0x20000001, 0x25), (0x20000002, 0xFA), (0x20000003, 0xFF), (0x20000100, 0xD3), (0x20000101, 0x2E)] := by decide
theorem test_blit1dCopy_la1 :
    memAfter (.blit1dCopy .w8 .w8) la1 =
      some [(0x20000000, 0x11), (0x20000001, 0xAB), (0x20000002, 0xCD), (0x20000003, 0x45), (0x20000100, 0xAB), (0x20000101, 0xCD), (0x20000102, 0xF5)] := by decide
theorem test_blit1dInv_la1 :
    memAfter (.blit1dInv .w8 .w8) la1 =
      some [(0x20000000, 0x11), (0x20000001, 0x54), (0x20000002, 0x32), (0x20000003, 0x42), (0x20000100, 0xAB), (0x20000101, 0xCD), (0x20000102, 0xF5)] := by decide
theorem test_blit1dAnd_la1 :
    memAfter (.blit1dAnd .w8 .w8) la1 =
      some [(0x20000000, 0x11), (0x20000001, 0x22), (0x20000002, 0x01), (0x20000003, 0x44), (0x20000100, 0xAB), (0x20000101, 0xCD), (0x20000102, 0xF5)] := by decide
theorem test_blit1dOr_la1 :
    memAfter (.blit1dOr .w8 .w8) la1 =
      some [(0x20000000, 0x11), (0x20000001, 0xAB), (0x20000002, 0xFF), (0x20000003, 0x45), (0x20000100, 0xAB), (0x20000101, 0xCD), (0x20000102, 0xF5)] := by decide
theorem test_blit1dXor_la1 :
    memAfter (.blit1dXor .w8 .w8) la1 =
      some [(0x20000000, 0x11), (0x20000001, 0x89), (0x20000002, 0xFE), (0x20000003, 0x41), (0x20000100, 0xAB), (0x20000101, 0xCD), (0x20000102, 0xF5)] := by decide

/-- G3: height clipped, a set background (95_test_vectors.md 2.3). -/
def g3 : State :=
  onMem
    { Descriptors.reset with
      dstBase := 0x20000000, dstCap := 2, dstRows := 3, dstX := 4, dstY := 2, srcBase := 0x20000100, srcW := 8, srcH := 3 }
    [(0x20000000, 0xF0), (0x20000001, 0xF0), (0x20000002, 0xF0), (0x20000003, 0xF0), (0x20000004, 0xF0), (0x20000005, 0xF0),
      (0x20000100, 0xA5), (0x20000101, 0x5A), (0x20000102, 0xFF)]

/-- What G3 leaves when elements 4 and 5 become u and v. -/
def g3After (u v : Byte) : Option Memory :=
  some [(0x20000000, 0xF0), (0x20000001, 0xF0), (0x20000002, 0xF0), (0x20000003, 0xF0), (0x20000004, u), (0x20000005, v),
    (0x20000100, 0xA5), (0x20000101, 0x5A), (0x20000102, 0xFF)]

theorem test_blit2dCopy_g3 : memAfter (.blit2dCopy .w8 .w8) g3 = g3After 0x50 0xFA := by decide +kernel
theorem test_blit2dInv_g3 : memAfter (.blit2dInv .w8 .w8) g3 = g3After 0xA0 0xF5 := by decide +kernel
theorem test_blit2dAnd_g3 : memAfter (.blit2dAnd .w8 .w8) g3 = g3After 0x50 0xF0 := by decide +kernel
theorem test_blit2dOr_g3 : memAfter (.blit2dOr .w8 .w8) g3 = g3After 0xF0 0xFA := by decide +kernel
theorem test_blit2dXor_g3 : memAfter (.blit2dXor .w8 .w8) g3 = g3After 0xA0 0xFA := by decide +kernel
theorem test_blit2dpCopy_g3 : memAfter (.blit2dpCopy .w8 .w8) g3 = g3After 0x50 0xFA := by decide +kernel
theorem test_blit2dpInv_g3 : memAfter (.blit2dpInv .w8 .w8) g3 = g3After 0xA0 0xF5 := by decide +kernel
theorem test_blit2dpAnd_g3 : memAfter (.blit2dpAnd .w8 .w8) g3 = g3After 0x50 0xF0 := by decide +kernel
theorem test_blit2dpOr_g3 : memAfter (.blit2dpOr .w8 .w8) g3 = g3After 0xF0 0xFA := by decide +kernel
theorem test_blit2dpXor_g3 : memAfter (.blit2dpXor .w8 .w8) g3 = g3After 0xA0 0xFA := by decide +kernel

/-- G2: width clipped, pitch of the unclipped width (95_test_vectors.md 2.3): source element 2 is the second row's. -/
theorem test_blit2d_pitch_trace :
    traceAfter (.blit2dCopy .w8 .w8)
        (onMem
          { Descriptors.reset with
            dstBase := 0x20000000, dstCap := 2, dstRows := 3, dstX := 10, dstY := 1, srcBase := 0x20000100, srcW := 12,
            srcH := 2 }
          [(0x20000100, 0xFF), (0x20000101, 0x0F), (0x20000102, 0x55), (0x20000103, 0x0A)]) =
      some [.srcRead 0x20000100 1, .dstRead 0x20000003 1, .dstWrite 0x20000003 1 0xFC,
        .srcRead 0x20000102 1, .dstRead 0x20000005 1, .dstWrite 0x20000005 1 0x54] := by decide

/-- PACK with Wd = 16, Ws = 8 (95_test_vectors.md 2.4). -/
def pack16 (s : Word) (m : Memory) : State :=
  onMem { Descriptors.reset with dstBase := 0x20000000, srcBase := 0x20000100, shift := s } m

theorem test_packCopy_carry :
    memAfter (.packCopy .w16 .w8) (pack16 4 [(0x20000000, 0xFF), (0x20000001, 0xFF), (0x20000100, 0xAB), (0x20000101, 0xCD), (0x20000102, 0xEF)]) =
      some [(0x20000000, 0xDE), (0x20000001, 0xBC), (0x20000100, 0xAB), (0x20000101, 0xCD), (0x20000102, 0xEF)] := by decide
theorem test_packInv_carry :
    memAfter (.packInv .w16 .w8) (pack16 4 [(0x20000000, 0xFF), (0x20000001, 0xFF), (0x20000100, 0xAB), (0x20000101, 0xCD), (0x20000102, 0xEF)]) =
      some [(0x20000000, 0x21), (0x20000001, 0x43), (0x20000100, 0xAB), (0x20000101, 0xCD), (0x20000102, 0xEF)] := by decide
theorem test_packAnd_carry :
    memAfter (.packAnd .w16 .w8) (pack16 4 [(0x20000000, 0xFF), (0x20000001, 0xFF), (0x20000100, 0xAB), (0x20000101, 0xCD), (0x20000102, 0xEF)]) =
      some [(0x20000000, 0xDE), (0x20000001, 0xBC), (0x20000100, 0xAB), (0x20000101, 0xCD), (0x20000102, 0xEF)] := by decide
theorem test_packOr_carry :
    memAfter (.packOr .w16 .w8) (pack16 4 [(0x20000000, 0xFF), (0x20000001, 0xFF), (0x20000100, 0xAB), (0x20000101, 0xCD), (0x20000102, 0xEF)]) =
      some [(0x20000000, 0xFF), (0x20000001, 0xFF), (0x20000100, 0xAB), (0x20000101, 0xCD), (0x20000102, 0xEF)] := by decide
theorem test_packXor_carry :
    memAfter (.packXor .w16 .w8) (pack16 4 [(0x20000000, 0xFF), (0x20000001, 0xFF), (0x20000100, 0xAB), (0x20000101, 0xCD), (0x20000102, 0xEF)]) =
      some [(0x20000000, 0x21), (0x20000001, 0x43), (0x20000100, 0xAB), (0x20000101, 0xCD), (0x20000102, 0xEF)] := by decide
theorem test_packCopy_topshift :
    memAfter (.packCopy .w16 .w8) (pack16 7 [(0x20000000, 0x34), (0x20000001, 0x12), (0x20000100, 0x01), (0x20000101, 0x80), (0x20000102, 0xFF)]) =
      some [(0x20000000, 0x7F), (0x20000001, 0xC0), (0x20000100, 0x01), (0x20000101, 0x80), (0x20000102, 0xFF)] := by decide
theorem test_packInv_topshift :
    memAfter (.packInv .w16 .w8) (pack16 7 [(0x20000000, 0x34), (0x20000001, 0x12), (0x20000100, 0x01), (0x20000101, 0x80), (0x20000102, 0xFF)]) =
      some [(0x20000000, 0x80), (0x20000001, 0x3F), (0x20000100, 0x01), (0x20000101, 0x80), (0x20000102, 0xFF)] := by decide
theorem test_packAnd_topshift :
    memAfter (.packAnd .w16 .w8) (pack16 7 [(0x20000000, 0x34), (0x20000001, 0x12), (0x20000100, 0x01), (0x20000101, 0x80), (0x20000102, 0xFF)]) =
      some [(0x20000000, 0x34), (0x20000100, 0x01), (0x20000101, 0x80), (0x20000102, 0xFF)] := by decide
theorem test_packOr_topshift :
    memAfter (.packOr .w16 .w8) (pack16 7 [(0x20000000, 0x34), (0x20000001, 0x12), (0x20000100, 0x01), (0x20000101, 0x80), (0x20000102, 0xFF)]) =
      some [(0x20000000, 0x7F), (0x20000001, 0xD2), (0x20000100, 0x01), (0x20000101, 0x80), (0x20000102, 0xFF)] := by decide
theorem test_packXor_topshift :
    memAfter (.packXor .w16 .w8) (pack16 7 [(0x20000000, 0x34), (0x20000001, 0x12), (0x20000100, 0x01), (0x20000101, 0x80), (0x20000102, 0xFF)]) =
      some [(0x20000000, 0x4B), (0x20000001, 0xD2), (0x20000100, 0x01), (0x20000101, 0x80), (0x20000102, 0xFF)] := by decide

/-! ### Access order, refusals, the port (95_test_vectors.md 2.2, 2.5, 2.6) -/

theorem test_trace_la1_copy :
    traceAfter (.blit1dCopy .w8 .w8) la1 =
      some [.srcRead 0x20000100 1, .dstWrite 0x20000001 1 0xAB, .srcRead 0x20000101 1, .dstWrite 0x20000002 1 0xCD,
        .srcRead 0x20000102 1, .dstRead 0x20000003 1, .dstWrite 0x20000003 1 0x45] := by decide

theorem test_trace_ln1_low_part_only :
    (traceAfter (.blit1dOr .w8 .w8) ln1f).map (·.map BusAccess.shape) = some (blit1dAccesses .or 8 ln1f.desc) := by decide

theorem test_refusal_codes :
    let z := Descriptors.reset
    let p := { z with dstBase := 0x20000000, srcBase := 0x20000100, dstCap := 2 }
    [statusAfter z 0x00000F70, statusAfter z 0x00000080, statusAfter z 0x00000086, statusAfter z 0x00000356,
      statusAfter z 0x00000351, statusAfter z 0x00000C02, statusAfter z 0x00000405,
      statusAfter { p with shift := 8, dstBase := 0x20000001 } 0x00000105, statusAfter { p with dstBase := 0x20000001 } 0x00000105,
      statusAfter { p with srcBase := 0x20000101 } 0x00000105, statusAfter { p with srcBase := 0x20000102, dstCap := 0 } 0x00000A02,
      statusAfter z 0x00000002, statusAfter p 0x00000002, statusAfter p 0x00000003] =
    [some 0, some 0x11, some 0x11, some 0x21, some 0x31, some 0x41, some 0x51, some 0x61, some 0x71, some 0, some 0x71,
      some 0x81, some 0, some 0x81] := by decide

/-- A state with one host event pending, STATUS holding code 2, a descriptor and a byte of memory set. -/
def atPort (e : HostEvent) : State :=
  { State.reset with
    status := { cfgErr := true, errCode := 2 }, res := 5, mem := [(7, 9)], pending := [e],
    desc := { Descriptors.reset with dstX := 0xDEADBEEF } }

theorem test_refused_word_is_stored_first_code_kept :
    (got (step (atPort (.regWrite 0 4 0x00000405)))).map (fun t => (t.cmd, t.status.word)) = some (0x405, 0x21) := by decide
theorem test_clrerr :
    (got (step (atPort (.regWrite 4 4 0xFFFFFFFF)))).map (·.status.word) = some 0 ∧
      (got (step (atPort (.regWrite 4 4 0xFFFFFFFE)))).map (·.status.word) = some 0x21 := by decide
theorem test_read_descriptor : (got (step (atPort (.regRead 0x14 4)))).map (·.reply) = some (some 0xDEADBEEF) := by decide
theorem test_res_is_read_only :
    (got (step (atPort (.regWrite 0x38 4 0x12345678)))).map (·.res) = some 5 := by decide
theorem test_halfword_access_refused : step (atPort (.regRead 0x14 2)) = .refused .registerAccess := rfl
theorem test_offset_beyond_block_refused : step (atPort (.regWrite 0x40 4 1)) = .refused .registerAccess := rfl
theorem test_reset_keeps_memory :
    (got (step (atPort .reset))).map (fun t => (t.status.word, t.res, t.mem)) = some (0, 0, [(7, 9)]) := by decide

/-- Reset after six of the eight accesses of L-N1f with COPY: two elements written, the third as it was. -/
theorem test_reset_during_command :
    (got (step { ln1f with pending := [.cmdThenReset 0x00000002 6] })).map (fun t => (t.cmd, t.mem)) =
      some (0, [(0x20000000, 0x7F), (0x20000001, 0xDA), (0x20000002, 0xFF), (0x20000003, 0xFF), (0x20000100, 0xD3), (0x20000101, 0x2E)]) := by decide

/-- An access with nothing behind its address leaves the command stuck (20_memory.md R71). -/
theorem test_hole_sticks :
    exec (.blit1dCopy .w8 .w8) { la1 with holes := [{ base := 0x20000003, size := 1 }] } = .fault .accessNotCompleted := rfl

/-- A hole no access reaches does not matter. -/
theorem test_hole_not_reached :
    (got (exec (.blit1dCopy .w8 .w8) { la1 with holes := [{ base := 0x20000004, size := 1 }] })).isSome = true := by decide

/-- 16-bit elements are little-endian: vector G7's first row, seen as bytes (95_test_vectors.md 2.3). -/
theorem test_blit2d_w16_little_endian :
    memAfter (.blit2dCopy .w16 .w16)
        (onMem
          { Descriptors.reset with
            dstBase := 0x20000000, dstCap := 2, dstRows := 2, dstX := 12, dstY := 0, srcBase := 0x20000100, srcW := 10,
            srcH := 2 }
          [(0x20000100, 0xFF), (0x20000101, 0x03), (0x20000102, 0x55), (0x20000103, 0x01)]) =
      some [(0x20000001, 0xF0), (0x20000002, 0x3F), (0x20000005, 0x50), (0x20000006, 0x15),
        (0x20000100, 0xFF), (0x20000101, 0x03), (0x20000102, 0x55), (0x20000103, 0x01)] := by decide

/-- The machine runs a fetched word as its first step from reset: PACK.COPY.16.8 makes its four accesses. -/
theorem test_first_command_after_reset :
    (got (step (State.reset.withFetchWord 32 0x105))).map (fun t => (t.cmd, t.trace.length)) = some (0x105, 4) := by decide

/-! ### Witnesses: a state and operands that meet all hypotheses of each statement together -/

theorem witness_EncodeOfDecode : decode 0x00000533 = .ok (.blit2dOr .w16 .w16) := by decide

theorem witness_ResetLeavesEveryRegisterZero : (atPort .reset).pending = .reset :: [] := rfl

theorem witness_DescriptorHoldsLastWrite :
    Reg.opb ≠ .cmd ∧ Reg.opb ≠ .status ∧ Reg.opb ≠ .res ∧ Reg.opb ≠ .reserved ∧
      (atPort (.regWrite 0x34 4 0xFFFFFFFF)).pending = .regWrite (regOffset .opb) 4 0xFFFFFFFF :: [] := by decide

theorem witness_RegisterReadReturnsValue :
    (atPort (.regRead 0x3C 4)).pending = .regRead (regOffset .reserved) 4 :: [] := rfl

theorem witness_StatusWriteOneClears : (atPort (.regWrite 0x04 4 1)).pending = .regWrite 0x04 4 1 :: [] := rfl

theorem witness_ReadOnlyRegistersIgnoreWrites :
    (atPort (.regWrite 0x38 4 1)).pending = .regWrite 0x38 4 1 :: [] ∧
      (atPort (.regWrite 0x3C 4 1)).pending = .regWrite 0x3C 4 1 :: [] := ⟨rfl, rfl⟩

/-- Both events, the last served offset and the first refused one. -/
theorem witness_PortRefusesExactlyOtherAccesses :
    (atPort (.regWrite 0x3C 4 1)).pending = .regWrite 0x3C 4 1 :: [] ∧ step (atPort (.regWrite 0x3C 4 1)) ≠ .refused .registerAccess ∧
      (atPort (.regRead 0x40 4)).pending = .regRead 0x40 4 :: [] ∧ step (atPort (.regRead 0x40 4)) = .refused .registerAccess :=
  ⟨rfl, nofun, rfl, rfl⟩

theorem witness_StepRunsDecodedCommand :
    (atPort (.regWrite 0 4 0x105)).pending = .regWrite 0 4 0x105 :: [] ∧ decode 0x105 = .ok (.packCopy .w16 .w8) := by decide

/-- Every code from 1 to 8, at a word and descriptors that give it. -/
theorem witness_RefusalRecordsLowestCode :
    (atPort (.regWrite 0 4 6)).pending = .regWrite 0 4 6 :: [] ∧
    let z := Descriptors.reset
    [refusalCode 0x1000 z, refusalCode 6 z, refusalCode 0x51 z, refusalCode 0x301 z, refusalCode 0x401 z,
      refusalCode 0x105 { z with shift := 8 }, refusalCode 0x502 { z with dstBase := 1 }, refusalCode 2 z] =
      [1, 2, 3, 4, 5, 6, 7, 8] := by decide

/-- Accepted words of every family. -/
theorem witness_AcceptedCommandKeepsStatus :
    (atPort (.regWrite 0 4 0xF70)).pending = .regWrite 0 4 0xF70 :: [] ∧
    let d := { Descriptors.reset with dstCap := 1, dstRows := 1, shift := 7 }
    [refusalCode 0xF70 d, refusalCode 0x241 d, refusalCode 2 d, refusalCode 0x533 d, refusalCode 0xA44 d,
      refusalCode 0x105 d] = [0, 0, 0, 0, 0, 0] := by decide

theorem witness_RmwPerBit : 31 < 32 := by decide

/-- Both signs of the shift, and 0, which is in the first clause. -/
theorem witness_RmwShiftIsFloorOfProduct : (0 : Int) ≤ 0 ∧ (-1 : Int) < 0 := by decide

theorem witness_RmwAppliedTwice : (0xA5#8 &&& ~~~0x0F#8) = (0xA0#8 &&& ~~~0x0F#8) := by decide

theorem witness_RmwDisjointMasksCommute : 0x0F#8 &&& 0xF0#8 = 0 ∧ 7 < 8 := by decide

theorem witness_RmwCommandWritesRes :
    widthBits .w32 = some 32 ∧ widthBits .w8 = some 8 ∧ 8 ≤ 32 ∧ widthBits .w16 = some 16 ∧ 16 ≤ 16 := by decide

/-- L-N1f and L-A1: source and destination apart, every access completing although the address space has holes, for
every operation. -/
theorem witness_Blit1dNetEffect :
    ∀ s ∈ [ln1f, la1], blitReady s.desc .w8 .w8 8 ∧ blit1dApart s.desc 8 ∧
      ∀ op ∈ [Op.copy, .inv, .and, .or, .xor],
        allComplete [{ base := 0, size := 0x20000000 }] (blit1dAccesses op 8 s.desc) := by decide

theorem witness_Blit1dMakesListedAccesses :
    blitReady la1.desc .w8 .w8 8 ∧ allComplete la1.holes (blit1dAccesses .copy 8 la1.desc) := by decide

/-- Both clauses: length 0, and an offset exactly at the capacity. -/
theorem witness_Blit1dEmptyRunChangesNothing :
    blitReady la1.desc .w8 .w8 8 ∧ ({ la1.desc with srcW := 0 }).srcW = 0 ∧
      ({ la1.desc with dstX := 32 }).dstCap.toNat ≤ ({ la1.desc with dstX := 32 }).dstX.toNat / 8 := by decide

theorem witness_Blit1dIssuedTwice :
    blitReady ln1f.desc .w8 .w8 8 ∧ blit1dApart ln1f.desc 8 ∧ allComplete ln1f.holes (blit1dAccesses .xor 8 ln1f.desc) := by
  decide

/-- P2's glyph (95_test_vectors.md section 3): 5 by 3, crossing an element boundary. -/
def glyph : Descriptors :=
  { Descriptors.reset with
    dstBase := 0x20000000, dstCap := 2, dstRows := 4, dstX := 6, dstY := 1, srcBase := 0x20000100, srcW := 5, srcH := 3 }

set_option synthInstance.maxSize 2000 in
theorem glyph_apart : blit2dApart glyph 8 := by decide

theorem witness_Blit2dNetEffect :
    rectReady glyph .w8 .w8 8 ∧ blit2dApart glyph 8 ∧ rectFits glyph 8 ∧ allComplete [] (blit2dAccesses .or 8 glyph) :=
  ⟨by decide, glyph_apart, by decide, by decide⟩

theorem witness_Blit2dpNetEffect :
    rectReady glyph .w8 .w8 8 ∧ blit2dApart glyph 8 ∧ rectFits glyph 8 ∧ allComplete [] (blit2dpAccesses 8 glyph) :=
  ⟨by decide, glyph_apart, by decide, by decide⟩

theorem witness_RealizationsLeaveSameMemory :
    rectReady glyph .w8 .w8 8 ∧ blit2dApart glyph 8 ∧ rectFits glyph 8 ∧ allComplete [] (blit2dAccesses .or 8 glyph) ∧
      allComplete [] (blit2dpAccesses 8 glyph) :=
  ⟨by decide, glyph_apart, by decide, by decide, by decide⟩

theorem witness_Blit2dMakesListedAccesses :
    rectReady g3.desc .w8 .w8 8 ∧ allComplete g3.holes (blit2dAccesses .copy 8 g3.desc) := by decide

theorem witness_Blit2dpMakesListedAccesses :
    rectReady g3.desc .w8 .w8 8 ∧ allComplete g3.holes (blit2dpAccesses 8 g3.desc) := by decide

/-- All four clauses, the first two exactly at the bound. -/
theorem witness_EmptyRectangleChangesNothing :
    rectReady glyph .w8 .w8 8 ∧ ({ glyph with dstX := 16 }).dstCap.toNat * 8 ≤ ({ glyph with dstX := 16 }).dstX.toNat ∧
      ({ glyph with dstY := 4 }).dstRows.toNat ≤ ({ glyph with dstY := 4 }).dstY.toNat ∧
      ({ glyph with srcW := 0 }).srcW = 0 ∧ ({ glyph with srcH := 0 }).srcH = 0 := by decide

theorem witness_PixelStepIsOneBitRmw : 0 < 32 ∧ 31 < 32 := by decide

/-- An accepted rectangle of one row, and a refused one (reset's DST_CAP is 0). -/
theorem witness_OneRowRectangleIsBlit1d :
    let d := { glyph with dstRows := 1, dstY := 0, srcH := 1 }
    d.dstRows = 1 ∧ d.dstY = 0 ∧ d.srcH = 1 ∧ blit2dChecks d .w8 .w8 = .ok 8 ∧
      blit2dChecks { d with dstCap := 0 } .w8 .w8 = .error .zeroCap := by decide

/-- Both realizations. -/
theorem witness_RectangleIssuedTwice :
    rectReady glyph .w8 .w8 8 ∧ blit2dApart glyph 8 ∧ rectFits glyph 8 ∧ allComplete [] (blit2dAccesses .xor 8 glyph) ∧
      allComplete [] (blit2dpAccesses 8 glyph) :=
  ⟨by decide, glyph_apart, by decide, by decide, by decide⟩

/-- SHIFT at its two ends, 0 and Ws - 1: without and with the look-ahead. -/
theorem witness_PackNetEffect :
    (packReady (pack16 0 []).desc .w16 .w8 16 8 ∧ packApart (pack16 0 []).desc 16 8 ∧
        allComplete [] (packAccesses 16 8 (pack16 0 []).desc)) ∧
      packReady (pack16 7 []).desc .w16 .w8 16 8 ∧ packApart (pack16 7 []).desc 16 8 ∧
        allComplete [] (packAccesses 16 8 (pack16 7 []).desc) :=
  ⟨⟨by decide, by decide, by decide⟩, by decide, by decide, by decide⟩

theorem witness_PackMakesListedAccesses :
    packReady (pack16 7 []).desc .w16 .w8 16 8 ∧ allComplete [] (packAccesses 16 8 (pack16 7 []).desc) := by decide

theorem witness_StepKeepsInvariant :
    { la1 with pending := [.regWrite 0 4 2] }.inv ∧ (got (step { la1 with pending := [.regWrite 0 4 2] })).isSome = true := by
  decide

theorem witness_MemoryChangesOnlyByRecordedWrites : (got (exec (.blit1dCopy .w8 .w8) la1)).isSome = true := by decide

/-- All four clauses. -/
theorem witness_DestinationAccessesInBounds :
    widthBits .w8 = some 8 ∧ (traceAfter (.blit1dCopy .w8 .w8) la1).map (·.length) = some 7 ∧
      (traceAfter (.blit2dAnd .w8 .w8) g3).map (·.length) = some 5 ∧
      (traceAfter (.blit2dpAnd .w8 .w8) g3).map (·.length) = some 24 ∧
      widthBits .w16 = some 16 ∧ (traceAfter (.packCopy .w16 .w8) (pack16 4 [])).map (·.length) = some 5 := by decide

/-- Two states that agree on what BLIT1D reads and differ in DST_Y, MASK, RES, STATUS and CMD. -/
theorem witness_CommandDependsOnlyOnWhatItReads :
    let s' : State := { la1 with
      desc := { la1.desc with dstY := 9, mask := 3 }, res := 1, cmd := 4, status := { cfgErr := true, errCode := 1 } }
    (∀ r ∈ readsRegs (.blit1dCopy .w8 .w8), la1.readReg r = s'.readReg r) ∧ la1.mem = s'.mem ∧ la1.holes = s'.holes ∧
      la1.desc ≠ s'.desc := by decide

theorem witness_StuckExactlyWhenAccessNotCompleted :
    (got (exec (.blit1dCopy .w8 .w8) { la1 with holes := [] })).isSome = true ∧
      (traceAfter (.blit1dCopy .w8 .w8) { la1 with holes := [] }).map (fun l => l.all (completes [{ base := 0x20000003, size := 1 }])) =
        some false := by decide

/-- A reset before the first access, in the middle, and after the last one of seven. -/
theorem witness_ResetDuringCommandKeepsPerformedAccesses :
    ∀ k ∈ [0, 3, 7], { la1 with pending := [.cmdThenReset 2 k] }.pending = .cmdThenReset 2 k :: [] ∧
      (got (State.runWord { la1 with pending := [], reply := none, trace := [] } 2)).isSome = true := by decide

theorem witness_AbandonedBlit1dElementsOldOrNew :
    { la1 with pending := [.cmdThenReset 2 3] }.pending = .cmdThenReset 2 3 :: [] ∧
      decode 2 = .ok (.blit1dCopy .w8 .w8) ∧ blitReady la1.desc .w8 .w8 8 ∧
      allComplete la1.holes (blit1dAccesses .copy 8 la1.desc) ∧
      1 < ceilDiv (la1.desc.dstX.toNat + runLength la1.desc 8) 8 ∧ la1.desc.dstX.toNat / 8 ≤ 1 := by decide

theorem witness_FlatBitsDoNotDependOnWidth : ∀ W ∈ [8, 16, 32], W = 8 ∨ W = 16 ∨ W = 32 := by decide

theorem witness_IdleEngineDoesNothing : State.reset.pending = [] := rfl

theorem witness_HostStoreReachesMemory :
    (atPort (.memStore 0xFFFFFFFF 1)).pending = .memStore 0xFFFFFFFF 1 :: [] ∧
      backed (atPort (.memStore 0xFFFFFFFF 1)).holes 0xFFFFFFFF = true := by decide

end Sys2Proof.Tests
end

section
/-! The invariant of the whole machine (10_state.md R26, 20_memory.md R51, R56, 60_exceptions.md R211): what every
element access keeps, a command's memory work keeps; and every command, host event and step keeps the invariant. -/

namespace Sys2Proof.Machine

/-! ### What the element accesses keep, the memory work of a command keeps -/

/-- A property of memory and record that the three element accesses of 20_memory.md R54 keep, for destination elements
of width Wd and source elements of width Ws, whatever their index and the value written. -/
structure KeptByAccesses (dst src : Word) (Wd Ws : Nat) (P : Bus → Prop) : Prop where
  srcRead : ∀ i b, P b → P (srcRead src Ws i b).2
  dstRead : ∀ i b, P b → P (dstRead dst Wd i b).2
  dstWrite : ∀ i (v : BitVec Wd) b, P b → P (dstWrite dst i v b)

namespace KeptByAccesses

section blits
variable {dst src : Word} {W : Nat} {P : Bus → Prop} (h : KeptByAccesses dst src W W P) {b : Bus}
include h

protected theorem rmwElem (op : Op) (de se : Nat) (M : BitVec W) (sh : Int) (hb : P b) :
    P (rmwElem op W dst src de se M sh b) :=
  h.dstWrite _ _ _ (h.dstRead _ _ (h.srcRead _ _ hb))

protected theorem copyElem (de se : Nat) (hb : P b) : P (copyElem W dst src de se b) :=
  h.dstWrite _ _ _ (h.srcRead _ _ hb)

protected theorem alignedElem (op : Op) (de se : Nat) (hb : P b) : P (alignedElem op W dst src de se b) := by
  rw [alignedElem_eq]
  split
  · exact h.copyElem de se hb
  · exact h.rmwElem op de se _ 0 hb

protected theorem alignedPath (op : Op) (dbase sbase n : Nat) (hb : P b) :
    P (alignedPath op W dst src dbase sbase n b) := by
  have hbulk : P (iterate (fun k => alignedElem op W dst src (dbase + k) (sbase + k)) (n / W) b) :=
    iterate_induct (fun _ => P) _ hb fun k _ _ hx => h.alignedElem op _ _ hx
  unfold alignedPath
  split
  · exact hbulk
  · exact h.rmwElem op _ _ _ 0 hbulk

protected theorem laterElem (op : Op) (de se p top : Nat) {st : BitVec W × Bus} (hst : P st.2) :
    P (laterElem op W dst src de se p top st).2 := by
  by_cases hp : p < top
  · rw [laterElem_high op W dst src de se hp]
    exact h.dstWrite _ _ _ (h.srcRead _ _ (h.dstRead _ _ hst))
  · rw [laterElem_low op W dst src de se hp]
    exact h.dstWrite _ _ _ (h.dstRead _ _ hst)

protected theorem unalignedPath (op : Op) (dbase sbase p n : Nat) (hb : P b) :
    P (unalignedPath op W dst src dbase sbase p n b) :=
  iterate_induct (fun _ (st : BitVec W × Bus) => P st.2) _ (h.rmwElem op dbase sbase _ _ hb)
    fun _ _ _ hst => h.laterElem op _ _ _ _ hst

protected theorem blit1d (op : Op) (dbase cap off sbase len : Nat) (hb : P b) :
    P (blit1d op W dst src dbase cap off sbase len b) := by
  by_cases hn : clip1d cap off len W = 0
  · rwa [blit1d_empty hn]
  by_cases hs : off % W + clip1d cap off len W ≤ W
  · rw [blit1d_subElement hn hs]
    exact h.rmwElem op _ _ _ _ hb
  by_cases hp : off % W = 0
  · rw [blit1d_aligned hn hs hp]
    exact h.alignedPath op _ _ _ hb
  · rw [blit1d_unaligned hn hs hp]
    exact h.unalignedPath op _ _ _ _ hb

end blits

section runs
variable {d : Descriptors} {Wd Ws W : Nat} {P : Bus → Prop} {b : Bus}

protected theorem blit1dRun (h : KeptByAccesses d.dstBase d.srcBase W W P) (op : Op) (hb : P b) :
    P (blit1dRun op W d b) :=
  h.blit1d op _ _ _ _ _ hb

protected theorem blit2dRun (h : KeptByAccesses d.dstBase d.srcBase W W P) (op : Op) (hb : P b) :
    P (blit2dRun op W d b) := by
  unfold blit2dRun
  dsimp only
  split
  · exact hb
  · exact iterate_induct (fun _ => P) _ hb fun r _ _ hx => h.blit1d op _ _ _ _ _ hx

protected theorem pixelStep (h : KeptByAccesses d.dstBase d.srcBase W W P) (op : Op) (g : Rect) (r x : Nat) (hb : P b) :
    P (pixelStep op W d g r x b) :=
  h.dstWrite _ _ _ (h.dstRead _ _ (h.srcRead _ _ hb))

protected theorem blit2dpRun (h : KeptByAccesses d.dstBase d.srcBase W W P) (op : Op) (hb : P b) :
    P (blit2dpRun op W d b) := by
  unfold blit2dpRun
  dsimp only
  split
  · exact hb
  · exact iterate_induct (fun _ => P) _ hb fun r _ _ hr =>
      iterate_induct (fun _ => P) _ hr fun x _ _ hx => h.pixelStep op _ r x hx

protected theorem packSlot {dst src : Word} (h : KeptByAccesses dst src Wd Ws P) (op : Op) (s N k : Nat)
    {held : PackHeld Wd Ws} (hb : P held.bus) : P (packSlot op Wd Ws src s N k held).bus := by
  by_cases hs : s = 0
  · subst hs
    by_cases hk : k + 1 ≤ N - 1
    · rw [packSlot_plain hk]
      exact h.srcRead _ _ hb
    · rwa [packSlot_last hk]
  · rw [packSlot_carry hs]
    exact h.srcRead _ _ hb

protected theorem packRun (h : KeptByAccesses d.dstBase d.srcBase Wd Ws P) (op : Op) (hb : P b) :
    P (packRun op Wd Ws d b) :=
  h.dstWrite _ _ _ <|
    iterate_induct (fun _ (held : PackHeld Wd Ws) => P held.bus) _ (h.srcRead _ _ (h.dstRead _ _ hb))
      fun k _ _ hx => h.packSlot op _ _ k hx

end runs

end KeptByAccesses

/-- Element widths of 8, 16 or 32 bits, and bases that are multiples of the elements' sizes: what the checks of every
command that reaches memory establish (30_encoding.md R84, 20_memory.md R56). -/
structure AlignedElements (d : Descriptors) (Wd Ws : Nat) : Prop where
  dstWidth : Wd = 8 ∨ Wd = 16 ∨ Wd = 32
  srcWidth : Ws = 8 ∨ Ws = 16 ∨ Ws = 32
  dstBase : d.dstBase.toNat % (Wd / 8) = 0
  srcBase : d.srcBase.toNat % (Ws / 8) = 0

theorem misalignedBases_eq_false {d : Descriptors} {Wd Ws : Nat} :
    misalignedBases d Wd Ws = false ↔ d.dstBase.toNat % (Wd / 8) = 0 ∧ d.srcBase.toNat % (Ws / 8) = 0 := by
  simp [misalignedBases]

theorem alignedElements_of_sameWidth {d : Descriptors} {wd ws : WidthCode} {W : Nat} (hw : sameWidth wd ws = .ok W)
    (hm : misalignedBases d W W = false) : AlignedElements d W W :=
  have hW := widthBits_cases (sameWidth_ok.1 hw).1
  have ⟨hd, hs⟩ := misalignedBases_eq_false.1 hm
  ⟨hW, hW, hd, hs⟩

theorem alignedElements_of_packChecks {d : Descriptors} {wd ws : WidthCode} {W : Nat × Nat}
    (h : packChecks d wd ws = .ok W) : AlignedElements d W.1 W.2 := by
  obtain ⟨hw, -, hm⟩ := packChecks_ok.1 h
  obtain ⟨hWd, hWs, -⟩ := narrowWidths_ok.1 hw
  obtain ⟨hd, hs⟩ := misalignedBases_eq_false.1 hm
  exact ⟨widthBits_cases hWd, widthBits_cases hWs, hd, hs⟩

/-- What every aligned element access keeps, the memory work of every accepted command keeps. -/
theorem MemoryRun.keeps {d : Descriptors} {run : Bus → Bus} {P : Bus → Prop} (hrun : MemoryRun d run)
    (hP : ∀ Wd Ws, AlignedElements d Wd Ws → KeptByAccesses d.dstBase d.srcBase Wd Ws P) {b : Bus} (hb : P b) :
    P (run b) := by
  cases hrun with
  | blit1d op W hc =>
    obtain ⟨hw, hm, -⟩ := blit1dChecks_ok.1 hc
    exact (hP W W (alignedElements_of_sameWidth hw hm)).blit1dRun op hb
  | blit2d op W hc =>
    obtain ⟨hw, hm, -, -⟩ := blit2dChecks_ok.1 hc
    exact (hP W W (alignedElements_of_sameWidth hw hm)).blit2dRun op hb
  | blit2dp op W hc =>
    obtain ⟨hw, hm, -, -⟩ := blit2dChecks_ok.1 hc
    exact (hP W W (alignedElements_of_sameWidth hw hm)).blit2dpRun op hb
  | pack op W hc => exact (hP W.1 W.2 (alignedElements_of_packChecks hc)).packRun op hb

/-! ### Canonical memory and naturally aligned accesses -/

/-- The part of the invariant that a command's memory work touches. -/
def Bus.inv (b : Bus) : Prop := b.mem.wf ∧ ∀ x ∈ b.log, x.natural

/-- One more access, with canonical memory after it. -/
theorem Bus.inv_access {b : Bus} (h : b.inv) {m : Memory} (hm : m.wf) {x : BusAccess} (hx : x.natural) :
    (Bus.mk m (b.log ++ [x])).inv := by
  refine ⟨hm, fun y hy => ?_⟩
  rcases List.mem_append.1 hy with hy | hy
  · exact h.2 y hy
  · rwa [List.mem_singleton.1 hy]

/-- Every element of an aligned buffer is naturally aligned, also past the wrap-around (20_memory.md R52, R56). -/
theorem elemAddr_aligned {base : Word} {W : Nat} (hW : W = 8 ∨ W = 16 ∨ W = 32) (hb : base.toNat % (W / 8) = 0)
    (i : Nat) : (elemAddr base i W).toNat % (W / 8) = 0 := by
  simp only [elemAddr, BitVec.toNat_add, BitVec.toNat_ofNat]
  rcases hW with rfl | rfl | rfl <;> omega

theorem elemSize_cases {W : Nat} (hW : W = 8 ∨ W = 16 ∨ W = 32) : W / 8 = 1 ∨ W / 8 = 2 ∨ W / 8 = 4 := by
  omega

theorem bus_inv_kept {d : Descriptors} {Wd Ws : Nat} (h : AlignedElements d Wd Ws) :
    KeptByAccesses d.dstBase d.srcBase Wd Ws Bus.inv where
  srcRead i _ hb := Bus.inv_access hb hb.1 ⟨elemSize_cases h.srcWidth, elemAddr_aligned h.srcWidth h.srcBase i⟩
  dstRead i _ hb := Bus.inv_access hb hb.1 ⟨elemSize_cases h.dstWidth, elemAddr_aligned h.dstWidth h.dstBase i⟩
  dstWrite i v _ hb :=
    Bus.inv_access hb (Memory.writeElem_wf hb.1 _ v)
      ⟨elemSize_cases h.dstWidth, elemAddr_aligned h.dstWidth h.dstBase i⟩

/-! ### STATUS -/

theorem Status.clear_legal : Status.clear.legal := rfl

theorem Status.record_legal {st : Status} (h : st.legal) (e : CfgErr) : (st.record e).legal := by
  cases hc : st.cfgErr with
  | true => rwa [Status.record_of_set hc]
  | false =>
    rw [Status.record_of_clear hc]
    exact errorCode_range e

theorem Status.write_legal {st : Status} (h : st.legal) (v : Word) : (st.write v).legal := by
  unfold Status.write
  split
  · exact Status.clear_legal
  · exact h

/-! ### Commands, host events and steps -/

theorem State.refuse_inv {s : State} (h : s.inv) (e : CfgErr) : (s.refuse e).inv :=
  have ⟨hmem, hst, htr⟩ := h
  ⟨hmem, Status.record_legal hst e, htr⟩

theorem State.finish_inv {s t : State} {run : Bus → Bus} (h : s.inv) (hrun : MemoryRun s.desc run)
    (ht : s.finish run = .next t) : t.inv := by
  obtain ⟨hmem, hst, htr⟩ := h
  obtain ⟨-, rfl⟩ := State.finish_next.1 ht
  obtain ⟨hmem', hlog⟩ : (run ⟨s.mem, []⟩).inv := hrun.keeps (fun _ _ => bus_inv_kept) ⟨hmem, by simp⟩
  refine ⟨hmem', hst, fun x hx => ?_⟩
  rcases List.mem_append.1 hx with hx | hx
  · exact htr x hx
  · exact hlog x hx

/-- Every command keeps the invariant. -/
theorem exec_inv {i : Instr} {s t : State} (h : s.inv) (ht : exec i s = .next t) : t.inv := by
  rcases exec_cases i s with he | ⟨e, he⟩ | ⟨v, he⟩ | ⟨run, hrun, he⟩ <;> rw [he] at ht
  · rwa [← Host.Outcome.next.inj ht]
  · rw [← Host.Outcome.next.inj ht]
    exact State.refuse_inv h e
  · rw [← Host.Outcome.next.inj ht]
    exact h
  · exact State.finish_inv h hrun ht

theorem State.runWord_inv {s t : State} {v : Word} (h : s.inv) (ht : s.runWord v = .next t) : t.inv := by
  cases hd : decode v with
  | error e =>
    rw [State.runWord_error hd] at ht
    rw [← Host.Outcome.next.inj ht]
    exact State.refuse_inv (s := { s with cmd := v }) h e
  | ok i =>
    rw [State.runWord_ok hd] at ht
    exact exec_inv (s := { s with cmd := v }) h ht

theorem State.setReg_inv {s : State} (h : s.inv) (r : Reg) (v : Word) : (s.setReg r v).inv := by
  obtain ⟨hmem, hst, htr⟩ := h
  refine ⟨by rwa [State.setReg_mem], ?_, by rwa [State.setReg_trace]⟩
  rw [State.setReg_status]
  split
  · exact Status.write_legal hst v
  · exact hst

theorem State.writeReg_inv {s t : State} {r : Reg} {v : Word} (h : s.inv) (ht : s.writeReg r v = .next t) : t.inv := by
  by_cases hr : r = .cmd
  · subst hr
    exact State.runWord_inv h ht
  · rw [writeReg_of_ne_cmd s hr] at ht
    rw [← Host.Outcome.next.inj ht]
    exact State.setReg_inv h r v

/-- Reset in the middle of a command leaves the performed accesses, the first of the command's record
(70_reset_and_hazards.md R242). -/
theorem State.resetDuring_inv {s t : State} {v : Word} {k : Nat} (h : s.inv) (ht : s.resetDuring v k = .next t) :
    t.inv := by
  obtain ⟨hmem, hst, -⟩ := h
  cases hw : ({ s with holes := [], trace := [] } : State).runWord v with
  | next u =>
    obtain ⟨-, -, htr⟩ := State.runWord_inv (s := { s with holes := [], trace := [] }) ⟨hmem, hst, by simp⟩ hw
    rw [State.resetDuring_eq k hw] at ht
    split at ht
    · rw [← Host.Outcome.next.inj ht]
      exact ⟨replay_wf hmem _, Status.clear_legal, fun x hx => htr x (List.mem_of_mem_take hx)⟩
    · cases ht
  | fault r => simp [State.resetDuring, hw] at ht
  | refused r => simp [State.resetDuring, hw] at ht

/-- Serving any host event keeps the invariant. -/
theorem State.serve_inv {s t : State} {e : HostEvent} (h : s.inv) (ht : s.serve e = .next t) : t.inv := by
  have ⟨hmem, hst, htr⟩ := h
  cases e with
  | regWrite off size v =>
    simp only [State.serve] at ht
    split at ht
    · exact State.writeReg_inv h ht
    · cases ht
  | regRead off size =>
    simp only [State.serve] at ht
    split at ht
    · rw [← Host.Outcome.next.inj ht]
      exact h
    · cases ht
  | reset =>
    rw [← Host.Outcome.next.inj ht]
    exact ⟨hmem, Status.clear_legal, by simp⟩
  | cmdThenReset v k => exact State.resetDuring_inv h ht
  | memStore a v =>
    obtain ⟨-, rfl⟩ := State.hostMemory_next.1 ht
    exact ⟨Memory.write_wf hmem a.isLt v, hst, htr⟩
  | memLoad a =>
    obtain ⟨-, rfl⟩ := State.hostMemory_next.1 ht
    exact h

theorem State.take_inv {s : State} (h : s.inv) (rest : List HostEvent) : (s.take rest).inv :=
  have ⟨hmem, hst, _⟩ := h
  ⟨hmem, hst, by simp⟩

/-- Settles O39: a step is idle or serves the oldest event. -/
theorem stepKeepsInvariant : Obligations.StepKeepsInvariant := by
  unfold Obligations.StepKeepsInvariant
  intro s t h ht
  cases hp : s.pending with
  | nil =>
    rw [step_nil hp] at ht
    rwa [← Host.Outcome.next.inj ht]
  | cons e rest =>
    rw [step_cons hp] at ht
    exact State.serve_inv (State.take_inv h rest) ht

/-- Settles O38: nothing is written, recorded or refused yet. -/
theorem resetSatisfiesInvariant : Obligations.ResetSatisfiesInvariant :=
  ⟨⟨List.Pairwise.nil, by simp⟩, Status.clear_legal, by simp⟩

end Sys2Proof.Machine
end

section
/-! The register block at the port (10_state.md R20 to R36): what a write leaves each register reading, which accesses
the port serves, and the exact next state of each host access. -/

namespace Sys2Proof.Machine

/-! ### One register after a write to another -/

/-- A descriptor register reads back the value written (10_state.md R22). -/
theorem State.readReg_setReg_same (s : State) {r : Reg} (v : Word) (hs : r ≠ .status) (hr : r ≠ .res)
    (hz : r ≠ .reserved) : (s.setReg r v).readReg r = v := by
  cases r <;> trivial

/-- A register write changes no other register. -/
theorem State.readReg_setReg_other (s : State) {r r' : Reg} (v : Word) (h : r' ≠ r) :
    (s.setReg r v).readReg r' = s.readReg r' := by
  cases r <;> cases r' <;> trivial

/-- What the registers read does not depend on the host's events, the reply or the record. -/
theorem State.readReg_take (s : State) (rest : List HostEvent) (r : Reg) : (s.take rest).readReg r = s.readReg r := by
  cases r <;> rfl

theorem State.reset_readReg (r : Reg) : State.reset.readReg r = 0 := by
  cases r <;> rfl

theorem State.resetEngine_readReg (s : State) (r : Reg) : s.resetEngine.readReg r = 0 := by
  have h : s.resetEngine.readReg r = State.reset.readReg r := by cases r <;> rfl
  rw [h, State.reset_readReg]

/-! ### The accesses the port serves -/

/-- Registers start at the multiples of 4 below 0x40 (10_state.md R21, R30). -/
theorem regAt_eq_none {off : Word} : regAt off = none ↔ ¬ (off.toNat % 4 = 0 ∧ off.toNat < 0x40) := by
  unfold regAt
  split
  case h_17 =>
    simp only [imp_false, true_iff] at *
    omega
  all_goals
    rename_i h
    simp [h]

theorem portReg_eq_none {off : Word} {size : Nat} :
    portReg off size = none ↔ ¬ (size = 4 ∧ off.toNat % 4 = 0 ∧ off.toNat < 0x40) := by
  unfold portReg
  split
  · rename_i h
    rw [regAt_eq_none]
    simp [h]
  · rename_i h
    simp [h]

/-- The next state of a host write to a register other than CMD. -/
theorem step_regWrite {s : State} {off : Word} {r : Reg} {v : Word} {rest : List HostEvent}
    (hp : s.pending = .regWrite off 4 v :: rest) (ho : off = regOffset r) (hr : r ≠ .cmd) :
    step s = .next ((s.take rest).setReg r v) := by
  rw [step_cons hp, ho, State.serve, portReg_regOffset]
  exact writeReg_of_ne_cmd _ hr v

/-- The next state of a host read of a register (10_state.md R25). -/
theorem step_regRead {s : State} {r : Reg} {rest : List HostEvent} (hp : s.pending = .regRead (regOffset r) 4 :: rest) :
    step s = .next { s.take rest with reply := some (s.readReg r) } := by
  rw [step_cons hp, State.serve, portReg_regOffset]
  simp only [State.readReg_take]

/-- A host write to CMD runs its word (10_state.md R25). -/
theorem step_cmd {s : State} {w : Word} {rest : List HostEvent} (hp : s.pending = .regWrite 0 4 w :: rest) :
    step s = (s.take rest).runWord w := by
  rw [step_cons hp, serve_cmd]

/-! ### What the port never refuses -/

/-- No command is refused by the model. -/
theorem exec_ne_refused (i : Instr) (s : State) (r : Refusal) : exec i s ≠ .refused r := by
  rcases exec_cases i s with he | ⟨e, he⟩ | ⟨v, he⟩ | ⟨run, -, he⟩ <;> rw [he]
  case inr.inr.inr => rcases State.finish_cases s run with ⟨t, h⟩ | h <;> simp [h]
  all_goals simp

theorem State.runWord_ne_refused (s : State) (v : Word) (r : Refusal) : s.runWord v ≠ .refused r := by
  cases hd : decode v with
  | error e => simp [State.runWord_error hd]
  | ok i => simpa [State.runWord_ok hd] using exec_ne_refused i _ r

theorem State.writeReg_ne_refused (s : State) (r : Reg) (v : Word) (x : Refusal) : s.writeReg r v ≠ .refused x := by
  by_cases hr : r = .cmd
  · subst hr
    exact State.runWord_ne_refused s v x
  · simp [writeReg_of_ne_cmd s hr]

/-- A register access is refused exactly when the port finds no register. -/
theorem State.serve_regWrite_refused (s : State) (off v : Word) (size : Nat) :
    s.serve (.regWrite off size v) = .refused .registerAccess ↔ portReg off size = none := by
  cases h : portReg off size with
  | none => simp [State.serve, h]
  | some r => simpa [State.serve, h] using State.writeReg_ne_refused s r v _

theorem State.serve_regRead_refused (s : State) (off : Word) (size : Nat) :
    s.serve (.regRead off size) = .refused .registerAccess ↔ portReg off size = none := by
  cases h : portReg off size <;> simp [State.serve, h]

/-! ### STATUS as a word -/

/-- Bit k of STATUS as read (10_state.md R26). -/
theorem Status.word_getLsbD (st : Status) (k : Nat) :
    st.word.getLsbD k = if k = 0 then st.cfgErr else if 4 ≤ k ∧ k < 8 then st.errCode.getLsbD (k - 4) else false := by
  unfold Status.word
  simp only [BitVec.getLsbD_append, BitVec.getLsbD_zero, BitVec.getLsbD_ofBool]
  by_cases h0 : k = 0
  · simp [h0]
  by_cases h4 : k < 4
  · have hlow : k - 1 < 3 := by omega
    simp [h0, hlow, show ¬ 4 ≤ k by omega]
  have hmid : ¬ k - 1 < 3 := by omega
  have hsub : k - 1 - 3 = k - 4 := by omega
  by_cases h8 : k < 8
  · simp [h0, hmid, hsub, h8, show k - 4 < 4 by omega, show 4 ≤ k by omega]
  · simp [h0, hmid, hsub, h8, show ¬ k - 4 < 4 by omega]

/-! ### The statements about the port -/

/-- Settles O6: the write is a register write, and the block is framed register by register. -/
theorem descriptorHoldsLastWrite : Obligations.DescriptorHoldsLastWrite := by
  unfold Obligations.DescriptorHoldsLastWrite
  intro s r v rest hc hs hr hz hp
  refine ⟨_, step_regWrite hp rfl hc, State.readReg_setReg_same _ v hs hr hz, fun r' hne => ?_, ?_, ?_, ?_, ?_⟩
  · rw [State.readReg_setReg_other _ v hne, State.readReg_take]
  all_goals simp

/-- Settles O11: both directions from the offsets at which registers start. -/
theorem portRefusesExactlyOtherAccesses : Obligations.PortRefusesExactlyOtherAccesses := by
  unfold Obligations.PortRefusesExactlyOtherAccesses
  intro s off v size rest hp
  rcases hp with hp | hp
  · rw [step_cons hp, State.serve_regWrite_refused, portReg_eq_none]
  · rw [step_cons hp, State.serve_regRead_refused, portReg_eq_none]

/-- Settles O5: every register reads as in the reset state. -/
theorem resetLeavesEveryRegisterZero : Obligations.ResetLeavesEveryRegisterZero := by
  unfold Obligations.ResetLeavesEveryRegisterZero
  refine ⟨State.reset_readReg, fun s rest hp => ⟨(s.take rest).resetEngine, step_cons hp, ?_⟩⟩
  exact ⟨State.resetEngine_readReg _, by simp⟩

/-- Settles O7: the port finds the register at its offset. -/
theorem registerReadReturnsValue : Obligations.RegisterReadReturnsValue :=
  fun _ _ _ hp => step_regRead hp

/-- Settles O8: the write of register STATUS. -/
theorem statusWriteOneClears : Obligations.StatusWriteOneClears :=
  fun _ _ _ hp => step_regWrite (r := .status) hp rfl (by decide)

/-- Settles O9: the layout of the word, bit by bit. -/
theorem statusWordLayout : Obligations.StatusWordLayout :=
  fun s k => Status.word_getLsbD s.status k

/-- Settles O10: the port takes the write, and neither register holds it. -/
theorem readOnlyRegistersIgnoreWrites : Obligations.ReadOnlyRegistersIgnoreWrites := by
  unfold Obligations.ReadOnlyRegistersIgnoreWrites
  intro s v rest hp
  refine ⟨?_, rfl⟩
  rcases hp with hp | hp
  · exact step_regWrite (r := .res) hp rfl (by decide)
  · exact step_regWrite (r := .reserved) hp rfl (by decide)

/-- Settles O13: a write to CMD runs its word. -/
theorem stepRunsDecodedCommand : Obligations.StepRunsDecodedCommand := by
  unfold Obligations.StepRunsDecodedCommand
  intro s w i rest hp hd
  rw [step_cmd hp, State.runWord_ok hd]
  rfl

end Sys2Proof.Machine
end

section
/-! Commands at the port: what a command leaves unchanged (10_state.md R21, R22, R28), the code of 60_exceptions.md R211
with which it is answered, and the registers it depends on (10_state.md R23, R38). -/

namespace Sys2Proof.Machine

/-! ### What a command leaves unchanged -/

/-- A command on memory is stuck only where the address space has a hole (20_memory.md R71). -/
theorem State.finish_fault {s : State} {run : Bus → Bus} {r : Fault} (h : s.finish run = .fault r) :
    r = .accessNotCompleted ∧ s.holes ≠ [] := by
  unfold State.finish at h
  split at h
  · cases h
  · rename_i hall
    refine ⟨(Host.Outcome.fault.inj h).symm, fun hnil => hall ?_⟩
    simp [hnil, completes_nil]

theorem exec_fault {i : Instr} {s : State} {r : Fault} (h : exec i s = .fault r) :
    r = .accessNotCompleted ∧ s.holes ≠ [] := by
  rcases exec_cases i s with he | ⟨e, he⟩ | ⟨v, he⟩ | ⟨run, -, he⟩ <;> rw [he] at h
  case inr.inr.inr => exact State.finish_fault h
  all_goals cases h

/-- No command writes CMD, a descriptor, or a field of the host's or the platform's. -/
theorem exec_frame {i : Instr} {s t : State} (h : exec i s = .next t) :
    t.cmd = s.cmd ∧ t.desc = s.desc ∧ t.pending = s.pending ∧ t.reply = s.reply ∧ t.holes = s.holes := by
  rcases exec_cases i s with he | ⟨e, he⟩ | ⟨v, he⟩ | ⟨run, -, he⟩ <;> rw [he] at h
  case inr.inr.inr =>
    obtain ⟨-, rfl⟩ := State.finish_next.1 h
    simp
  all_goals
    obtain rfl := Host.Outcome.next.inj h
    simp

/-- A checked command on memory leaves RES, refused or accepted. -/
theorem State.accept_finish_res {α : Type} {s t : State} {checks : Except CfgErr α} {run : α → Bus → Bus}
    (h : s.accept checks (fun a => s.finish (run a)) = .next t) : t.res = s.res := by
  rcases State.accept_next.1 h with ⟨e, -, rfl⟩ | ⟨a, -, hrun⟩
  · rfl
  · obtain ⟨-, rfl⟩ := State.finish_next.1 hrun
    rfl

/-- Only RMW writes RES (10_state.md R28). -/
theorem exec_res {i : Instr} {s t : State} (hi : ∀ op wd ws, i ≠ .rmw op wd ws) (h : exec i s = .next t) :
    t.res = s.res := by
  rcases instr_family i with ⟨o, wd, ws, rfl⟩ | ⟨op, wd, ws, rfl | rfl | rfl | rfl | rfl⟩
  · rw [← Host.Outcome.next.inj h]
  · exact absurd rfl (hi op wd ws)
  · rw [exec_blit1d] at h
    exact State.accept_finish_res h
  · rw [exec_blit2d] at h
    exact State.accept_finish_res h
  · rw [exec_blit2dp] at h
    exact State.accept_finish_res h
  · rw [exec_pack] at h
    exact State.accept_finish_res h

/-- Settles O40: one fact for each of the three outcomes. -/
theorem commandsKeepHostRegisters : Obligations.CommandsKeepHostRegisters := by
  unfold Obligations.CommandsKeepHostRegisters
  intro i s
  cases h : exec i s with
  | next t =>
    obtain ⟨hcmd, hdesc, hpend, hreply, hholes⟩ := exec_frame h
    exact ⟨hcmd, hdesc, hpend, hreply, hholes, fun hi => exec_res hi h⟩
  | fault r => exact exec_fault h
  | refused r => exact exec_ne_refused i s r h

/-! ### The fields of a command word as numbers -/

theorem fieldHigh_ne_zero {w : Word} : fieldHigh w ≠ 0 ↔ 4096 ≤ w.toNat := by
  have hw := w.isLt
  simp only [ne_eq, ← BitVec.toNat_inj, fieldHigh, BitVec.extractLsb'_toNat, Nat.shiftRight_eq_div_pow,
    BitVec.ofNat_eq_ofNat, BitVec.toNat_ofNat]
  omega

theorem fieldBit7_ne_zero {w : Word} : fieldBit7 w ≠ 0 ↔ w.toNat / 128 % 2 = 1 := by
  simp only [ne_eq, ← BitVec.toNat_inj, fieldBit7, BitVec.extractLsb'_toNat, Nat.shiftRight_eq_div_pow,
    BitVec.ofNat_eq_ofNat, BitVec.toNat_ofNat]
  omega

theorem fieldFunc_toNat (w : Word) : (fieldFunc w).toNat = w.toNat % 16 := by
  simp [fieldFunc, BitVec.extractLsb'_toNat]

theorem fieldOp_toNat (w : Word) : (fieldOp w).toNat = w.toNat / 16 % 8 := by
  simp [fieldOp, BitVec.extractLsb'_toNat, Nat.shiftRight_eq_div_pow]

theorem fieldWd_toNat (w : Word) : (fieldWd w).toNat = w.toNat / 256 % 4 := by
  simp [fieldWd, BitVec.extractLsb'_toNat, Nat.shiftRight_eq_div_pow]

theorem fieldWs_toNat (w : Word) : (fieldWs w).toNat = w.toNat / 1024 % 4 := by
  simp [fieldWs, BitVec.extractLsb'_toNat, Nat.shiftRight_eq_div_pow]

/-- FUNC 6 to 15 are reserved (30_encoding.md R82). -/
theorem decodeFunc_eq_none {f : BitVec 4} : decodeFunc f = none ↔ 6 ≤ f.toNat := by
  revert f; decide

theorem decodeFunc_eq_some {f : BitVec 4} {g : Func} : decodeFunc f = some g ↔ f = encodeFunc g := by
  revert f; cases g <;> decide

/-- OP 5 to 7 are reserved (30_encoding.md R83). -/
theorem decodeOp_eq_none {o : BitVec 3} : decodeOp o = none ↔ 5 ≤ o.toNat := by
  revert o; decide

theorem encodeWidth_decodeWidth (c : BitVec 2) : encodeWidth (decodeWidth c) = c := by
  revert c; decide

/-- A word with a reserved bit set is refused before anything else is looked at (30_encoding.md R90). -/
theorem decode_of_reservedBits {w : Word} (h : 4096 ≤ w.toNat ∨ w.toNat / 128 % 2 = 1) :
    decode w = .error .rsvdBits := by
  rw [← fieldHigh_ne_zero, ← fieldBit7_ne_zero] at h
  exact if_pos h

/-! ### The code of a check -/

/-- The code of 60_exceptions.md R211 with which a check answers; 0 when it passes. -/
def checkCode {α : Type} : Except CfgErr α → Nat
  | .ok _ => 0
  | .error e => (errorCode e).toNat

@[simp] theorem checkCode_ok {α : Type} (a : α) : checkCode (.ok a : Except CfgErr α) = 0 := rfl

@[simp] theorem checkCode_error {α : Type} (e : CfgErr) :
    checkCode (.error e : Except CfgErr α) = (errorCode e).toNat := rfl

/-- The number a width field holds (30_encoding.md R84). -/
def widthNumber (c : WidthCode) : Nat := (encodeWidth c).toNat

theorem widthNumber_decodeWidth (c : BitVec 2) : widthNumber (decodeWidth c) = c.toNat := by
  rw [widthNumber, encodeWidth_decodeWidth]

theorem checkCode_narrowWidths (wd ws : WidthCode) :
    checkCode (narrowWidths wd ws) =
      if widthNumber wd = 3 ∨ widthNumber ws = 3 then 4 else if widthNumber wd < widthNumber ws then 5 else 0 := by
  cases wd <;> cases ws <;> rfl

theorem checkCode_sameWidth (wd ws : WidthCode) :
    checkCode (sameWidth wd ws) =
      if widthNumber wd = 3 ∨ widthNumber ws = 3 then 4 else if widthNumber ws ≠ widthNumber wd then 5 else 0 := by
  cases wd <;> cases ws <;> rfl

/-- A width is 8 times a power of two, the exponent being the number in its field (30_encoding.md R84). -/
theorem widthBits_eq {c : WidthCode} {W : Nat} (h : widthBits c = some W) : W = 8 * 2 ^ widthNumber c := by
  cases c <;> cases h <;> rfl

theorem errorCode_ne_zero (e : CfgErr) : (errorCode e).toNat ≠ 0 :=
  Nat.one_le_iff_ne_zero.1 (errorCode_range e).1

/-- Misaligned bases, by the numbers in the width fields (20_memory.md R56). -/
theorem misalignedBases_eq_true {d : Descriptors} {wd ws : WidthCode} {Wd Ws : Nat} (hd : widthBits wd = some Wd)
    (hs : widthBits ws = some Ws) :
    misalignedBases d Wd Ws = true ↔
      d.dstBase.toNat % 2 ^ widthNumber wd ≠ 0 ∨ d.srcBase.toNat % 2 ^ widthNumber ws ≠ 0 := by
  simp [misalignedBases, widthBits_eq hd, widthBits_eq hs]

theorem checkCode_blit1dChecks (d : Descriptors) (wd ws : WidthCode) :
    checkCode (blit1dChecks d wd ws) =
      if checkCode (sameWidth wd ws) ≠ 0 then checkCode (sameWidth wd ws)
      else if d.dstBase.toNat % 2 ^ widthNumber wd ≠ 0 ∨ d.srcBase.toNat % 2 ^ widthNumber ws ≠ 0 then 7
      else if d.dstCap = 0 then 8 else 0 := by
  unfold blit1dChecks
  cases h : sameWidth wd ws with
  | error e => simp [errorCode_ne_zero]
  | ok W =>
    obtain ⟨hd, rfl⟩ := sameWidth_ok.1 h
    simp [misalignedBases_eq_true hd hd, apply_ite checkCode, errorCode]

theorem checkCode_blit2dChecks (d : Descriptors) (wd ws : WidthCode) :
    checkCode (blit2dChecks d wd ws) =
      if checkCode (sameWidth wd ws) ≠ 0 then checkCode (sameWidth wd ws)
      else if d.dstBase.toNat % 2 ^ widthNumber wd ≠ 0 ∨ d.srcBase.toNat % 2 ^ widthNumber ws ≠ 0 then 7
      else if d.dstCap = 0 ∨ d.dstRows = 0 then 8 else 0 := by
  unfold blit2dChecks
  cases h : sameWidth wd ws with
  | error e => simp [errorCode_ne_zero]
  | ok W =>
    obtain ⟨hd, rfl⟩ := sameWidth_ok.1 h
    simp [misalignedBases_eq_true hd hd, apply_ite checkCode, errorCode]

theorem checkCode_packChecks (d : Descriptors) (wd ws : WidthCode) :
    checkCode (packChecks d wd ws) =
      if checkCode (narrowWidths wd ws) ≠ 0 then checkCode (narrowWidths wd ws)
      else if 8 * 2 ^ widthNumber ws ≤ d.shift.toNat then 6
      else if d.dstBase.toNat % 2 ^ widthNumber wd ≠ 0 ∨ d.srcBase.toNat % 2 ^ widthNumber ws ≠ 0 then 7 else 0 := by
  unfold packChecks
  cases h : narrowWidths wd ws with
  | error e => simp [errorCode_ne_zero]
  | ok W =>
    obtain ⟨hd, hs, -⟩ := narrowWidths_ok.1 h
    simp [misalignedBases_eq_true hd hs, ← widthBits_eq hs, apply_ite checkCode, errorCode]

/-! ### The code of a word and the answer to it -/

/-- A word of a command with an operation: no reserved bit set, a FUNC, and OP 0 to 4 (30_encoding.md R86). -/
structure OperationWord (w : Word) (func : Nat) : Prop where
  high : ¬ (4096 ≤ w.toNat ∨ w.toNat / 128 % 2 = 1)
  func : w.toNat % 16 = func
  op : ¬ 5 ≤ w.toNat / 16 % 8

/-- The width codes come before any later code (60_exceptions.md R213). -/
theorem widthCodes_first (A B : Prop) [Decidable A] [Decidable B] (later : Nat) :
    (if (if A then 4 else if B then 5 else 0) ≠ 0 then (if A then 4 else if B then 5 else 0) else later) =
      if A then 4 else if B then 5 else later := by
  by_cases hA : A
  · simp [hA]
  · by_cases hB : B <;> simp [hA, hB]

section codes
variable {w : Word} {d : Descriptors} {func : Nat}

theorem refusalCode_rmw (h : OperationWord w 1) :
    refusalCode w d = checkCode (narrowWidths (decodeWidth (fieldWd w)) (decodeWidth (fieldWs w))) := by
  rw [checkCode_narrowWidths]
  simp only [widthNumber_decodeWidth, fieldWd_toNat, fieldWs_toNat, refusalCode, h.high, h.func, h.op]
  simp

theorem refusalCode_blit1d (h : OperationWord w 2) :
    refusalCode w d = checkCode (blit1dChecks d (decodeWidth (fieldWd w)) (decodeWidth (fieldWs w))) := by
  rw [checkCode_blit1dChecks, checkCode_sameWidth, widthCodes_first]
  simp only [widthNumber_decodeWidth, fieldWd_toNat, fieldWs_toNat, refusalCode, h.high, h.func, h.op]
  simp

theorem refusalCode_blit2d (h : OperationWord w func) (hf : func = 3 ∨ func = 4) :
    refusalCode w d = checkCode (blit2dChecks d (decodeWidth (fieldWd w)) (decodeWidth (fieldWs w))) := by
  rw [checkCode_blit2dChecks, checkCode_sameWidth, widthCodes_first]
  simp only [widthNumber_decodeWidth, fieldWd_toNat, fieldWs_toNat, refusalCode, h.high, h.func, h.op]
  rcases hf with rfl | rfl <;> simp

theorem refusalCode_pack (h : OperationWord w 5) :
    refusalCode w d = checkCode (packChecks d (decodeWidth (fieldWd w)) (decodeWidth (fieldWs w))) := by
  rw [checkCode_packChecks, checkCode_narrowWidths, widthCodes_first]
  simp only [widthNumber_decodeWidth, fieldWd_toNat, fieldWs_toNat, refusalCode, h.high, h.func, h.op]
  simp

theorem refusalCode_reservedBits (h : 4096 ≤ w.toNat ∨ w.toNat / 128 % 2 = 1) : refusalCode w d = 1 :=
  if_pos h

theorem refusalCode_illFunc (h : ¬ (4096 ≤ w.toNat ∨ w.toNat / 128 % 2 = 1)) (hf : 6 ≤ w.toNat % 16) :
    refusalCode w d = 2 := by
  simp only [refusalCode, if_neg h, if_pos hf]

theorem refusalCode_nop (h : ¬ (4096 ≤ w.toNat ∨ w.toNat / 128 % 2 = 1)) (hf : w.toNat % 16 = 0) :
    refusalCode w d = 0 := by
  simp [refusalCode, if_neg h, hf]

theorem refusalCode_illOp (h : ¬ (4096 ≤ w.toNat ∨ w.toNat / 128 % 2 = 1)) (hf : w.toNat % 16 < 6)
    (h0 : w.toNat % 16 ≠ 0) (ho : 5 ≤ w.toNat / 16 % 8) : refusalCode w d = 3 := by
  simp only [refusalCode, if_neg h, if_neg (Nat.not_le.2 hf), if_neg h0, if_pos ho]

end codes

/-- The answers to a command under a code of 60_exceptions.md R211: code 0 is a command that runs, any other a refusal
that records it. -/
inductive AnswersCode (s : State) : Nat → Host.Outcome State Fault Refusal → Prop
  | idle : AnswersCode s 0 (.next s)
  | result (v : Word) : AnswersCode s 0 (.next { s with res := v })
  | memory {run : Bus → Bus} : MemoryRun s.desc run → AnswersCode s 0 (s.finish run)
  | refused (e : CfgErr) : AnswersCode s (errorCode e).toNat (.next (s.refuse e))

/-- A checked command answers with the code of its checks. -/
theorem State.accept_answers {α : Type} {s : State} {checks : Except CfgErr α}
    {run : α → Host.Outcome State Fault Refusal} (h : ∀ a, checks = .ok a → AnswersCode s 0 (run a)) :
    AnswersCode s (checkCode checks) (s.accept checks run) := by
  cases hc : checks with
  | error e => exact .refused e
  | ok a => exact h a hc

section commands
variable (op : Op) (wd ws : WidthCode) (s : State)

theorem exec_rmw_answers : AnswersCode s (checkCode (narrowWidths wd ws)) (exec (.rmw op wd ws) s) := by
  rw [exec_rmw]
  exact State.accept_answers fun _ _ => .result _

theorem exec_blit1d_answers : AnswersCode s (checkCode (blit1dChecks s.desc wd ws)) (exec (.blit1d op wd ws) s) := by
  rw [exec_blit1d]
  exact State.accept_answers fun W hW => .memory (.blit1d op W hW)

theorem exec_blit2d_answers : AnswersCode s (checkCode (blit2dChecks s.desc wd ws)) (exec (.blit2d op wd ws) s) := by
  rw [exec_blit2d]
  exact State.accept_answers fun W hW => .memory (.blit2d op W hW)

theorem exec_blit2dp_answers : AnswersCode s (checkCode (blit2dChecks s.desc wd ws)) (exec (.blit2dp op wd ws) s) := by
  rw [exec_blit2dp]
  exact State.accept_answers fun W hW => .memory (.blit2dp op W hW)

theorem exec_pack_answers : AnswersCode s (checkCode (packChecks s.desc wd ws)) (exec (.pack op wd ws) s) := by
  rw [exec_pack]
  exact State.accept_answers fun W hW => .memory (.pack op W hW)

end commands

/-- A word with legal bits and the FUNC of a command with an operation: OP 5 to 7 answer code 3, and a defined OP what
the command answers. -/
theorem State.runWord_answers_of_decodeWithOp {s : State} {w : Word} {func : Nat}
    {mk : Op → WidthCode → WidthCode → Instr} (hbits : ¬ (4096 ≤ w.toNat ∨ w.toNat / 128 % 2 = 1))
    (hfunc : w.toNat % 16 = func) (hf : 0 < func ∧ func < 6) (hd : decode w = decodeWithOp mk w)
    (hexec : ∀ op, OperationWord w func →
      AnswersCode { s with cmd := w } (refusalCode w s.desc)
        (exec (mk op (decodeWidth (fieldWd w)) (decodeWidth (fieldWs w))) { s with cmd := w })) :
    AnswersCode { s with cmd := w } (refusalCode w s.desc) (s.runWord w) := by
  cases ho : decodeOp (fieldOp w) with
  | none =>
    rw [State.runWord_error (by rw [hd, decodeWithOp, ho])]
    rw [decodeOp_eq_none, fieldOp_toNat] at ho
    rw [refusalCode_illOp hbits (by omega) (by omega) ho]
    exact .refused .illOp
  | some op =>
    rw [State.runWord_ok (by rw [hd, decodeWithOp, ho])]
    have hop : ¬ 5 ≤ w.toNat / 16 % 8 := by
      rw [← fieldOp_toNat, ← decodeOp_eq_none, ho]
      simp
    exact hexec op ⟨hbits, hfunc, hop⟩

/-- Every word written to CMD is answered with its code of 60_exceptions.md R211, CMD holding the word (R212). -/
theorem State.runWord_answers (s : State) (w : Word) :
    AnswersCode { s with cmd := w } (refusalCode w s.desc) (s.runWord w) := by
  by_cases hbits : 4096 ≤ w.toNat ∨ w.toNat / 128 % 2 = 1
  · rw [State.runWord_error (decode_of_reservedBits hbits), refusalCode_reservedBits hbits]
    exact .refused .rsvdBits
  have hlegal : ¬ (fieldHigh w ≠ 0 ∨ fieldBit7 w ≠ 0) := by rwa [fieldHigh_ne_zero, fieldBit7_ne_zero]
  cases hf : decodeFunc (fieldFunc w) with
  | none =>
    rw [State.runWord_error (e := .illFunc) (by rw [decode, if_neg hlegal, hf])]
    rw [decodeFunc_eq_none, fieldFunc_toNat] at hf
    rw [refusalCode_illFunc hbits hf]
    exact .refused .illFunc
  | some f =>
    have hfunc : w.toNat % 16 = (encodeFunc f).toNat := by rw [← fieldFunc_toNat, decodeFunc_eq_some.1 hf]
    cases f with
    | nop =>
      rw [State.runWord_ok (by rw [decode, if_neg hlegal, hf]), refusalCode_nop hbits hfunc]
      exact .idle
    | rmw =>
      refine State.runWord_answers_of_decodeWithOp (mk := .rmw) hbits hfunc (by decide) ?_ fun op h => ?_
      · rw [decode, if_neg hlegal, hf]
      rw [refusalCode_rmw h]
      exact exec_rmw_answers ..
    | blit1d =>
      refine State.runWord_answers_of_decodeWithOp (mk := .blit1d) hbits hfunc (by decide) ?_ fun op h => ?_
      · rw [decode, if_neg hlegal, hf]
      rw [refusalCode_blit1d h]
      exact exec_blit1d_answers ..
    | blit2d =>
      refine State.runWord_answers_of_decodeWithOp (mk := .blit2d) hbits hfunc (by decide) ?_ fun op h => ?_
      · rw [decode, if_neg hlegal, hf]
      rw [refusalCode_blit2d h (.inl rfl)]
      exact exec_blit2d_answers ..
    | blit2dp =>
      refine State.runWord_answers_of_decodeWithOp (mk := .blit2dp) hbits hfunc (by decide) ?_ fun op h => ?_
      · rw [decode, if_neg hlegal, hf]
      rw [refusalCode_blit2d h (.inr rfl)]
      exact exec_blit2dp_answers ..
    | pack =>
      refine State.runWord_answers_of_decodeWithOp (mk := .pack) hbits hfunc (by decide) ?_ fun op h => ?_
      · rw [decode, if_neg hlegal, hf]
      rw [refusalCode_pack h]
      exact exec_pack_answers ..

/-- A command under code 0 completes and leaves STATUS, or is stuck at a hole. -/
theorem AnswersCode.keeps_status {s : State} {n : Nat} {o : Host.Outcome State Fault Refusal} (h : AnswersCode s n o)
    (hn : n = 0) :
    (∃ t, o = .next t ∧ t.status = s.status ∧ t.desc = s.desc ∧ t.cmd = s.cmd ∧ t.pending = s.pending) ∨
      (o = .fault .accessNotCompleted ∧ s.holes ≠ []) := by
  cases h with
  | idle => exact .inl ⟨s, by simp⟩
  | result v => exact .inl ⟨{ s with res := v }, by simp⟩
  | @memory run hrun =>
    rcases State.finish_cases s run with ⟨t, ht⟩ | hfault
    · obtain ⟨-, rfl⟩ := State.finish_next.1 ht
      exact .inl ⟨_, ht, by simp⟩
    · exact .inr ⟨hfault, (State.finish_fault hfault).2⟩
  | refused e => exact absurd hn (errorCode_ne_zero e)

/-- Settles O15: the word is answered under its code, which is 0. -/
theorem acceptedCommandKeepsStatus : Obligations.AcceptedCommandKeepsStatus := by
  unfold Obligations.AcceptedCommandKeepsStatus
  intro s w rest hp hcode
  rw [step_cmd hp]
  exact ((s.take rest).runWord_answers w).keeps_status hcode

/-! ### What a command depends on -/

/-- Two answers with the same effect from two states: the same accesses, the same memory, the same RES or none written,
the same error or none recorded, or stuck for the same reason. -/
def SameEffect (s s' : State) (o o' : Host.Outcome State Fault Refusal) : Prop :=
  match o, o' with
  | .next t, .next t' =>
    t.mem = t'.mem ∧ (∃ accs, t.trace = s.trace ++ accs ∧ t'.trace = s'.trace ++ accs) ∧
      ((t.res = s.res ∧ t'.res = s'.res) ∨ t.res = t'.res) ∧
      ((t.status = s.status ∧ t'.status = s'.status) ∨
        ∃ e, t.status = s.status.record e ∧ t'.status = s'.status.record e)
  | .fault r, .fault r' => r = r'
  | _, _ => False

section effects
variable {s s' : State} (hmem : s.mem = s'.mem)
include hmem

theorem sameEffect_next : SameEffect s s' (.next s) (.next s') :=
  ⟨hmem, ⟨[], by simp⟩, .inl ⟨rfl, rfl⟩, .inl ⟨rfl, rfl⟩⟩

theorem sameEffect_result (v : Word) : SameEffect s s' (.next { s with res := v }) (.next { s' with res := v }) :=
  ⟨hmem, ⟨[], by simp⟩, .inr rfl, .inl ⟨rfl, rfl⟩⟩

theorem sameEffect_refuse (e : CfgErr) : SameEffect s s' (.next (s.refuse e)) (.next (s'.refuse e)) :=
  ⟨hmem, ⟨[], by simp⟩, .inl ⟨rfl, rfl⟩, .inr ⟨e, rfl, rfl⟩⟩

/-- The same memory work on the same memory and platform. -/
theorem sameEffect_finish (hholes : s.holes = s'.holes) (run : Bus → Bus) :
    SameEffect s s' (s.finish run) (s'.finish run) := by
  unfold State.finish
  rw [← hmem, ← hholes]
  split
  · exact ⟨rfl, ⟨_, rfl, rfl⟩, .inl ⟨rfl, rfl⟩, .inl ⟨rfl, rfl⟩⟩
  · rfl

/-- The same checks, and the same effect when they pass. -/
theorem sameEffect_accept {α : Type} (checks : Except CfgErr α) {run run' : α → Host.Outcome State Fault Refusal}
    (hrun : ∀ a, SameEffect s s' (run a) (run' a)) :
    SameEffect s s' (s.accept checks run) (s'.accept checks run') := by
  cases checks with
  | error e => exact sameEffect_refuse hmem e
  | ok a => exact hrun a

end effects

section reads
variable (op : Op) (wd ws : WidthCode)

theorem readsRegs_rmw : readsRegs (.rmw op wd ws) = [.shift, .mask, .opa, .opb] := by cases op <;> rfl
theorem readsRegs_blit1d : readsRegs (.blit1d op wd ws) = [.dstBase, .dstCap, .dstX, .srcBase, .srcW] := by
  cases op <;> rfl
theorem readsRegs_blit2d : readsRegs (.blit2d op wd ws) = rectRegs := by cases op <;> rfl
theorem readsRegs_blit2dp : readsRegs (.blit2dp op wd ws) = rectRegs := by cases op <;> rfl
theorem readsRegs_pack : readsRegs (.pack op wd ws) = [.dstBase, .srcBase, .shift] := by cases op <;> rfl

end reads

/-- The checks and the memory work of BLIT1D read five descriptors (10_state.md R23). -/
theorem blit1d_congr {d d' : Descriptors} (hbase : d.dstBase = d'.dstBase) (hcap : d.dstCap = d'.dstCap)
    (hx : d.dstX = d'.dstX) (hsrc : d.srcBase = d'.srcBase) (hw : d.srcW = d'.srcW) :
    (∀ wd ws, blit1dChecks d wd ws = blit1dChecks d' wd ws) ∧ ∀ op W, blit1dRun op W d = blit1dRun op W d' := by
  refine ⟨fun wd ws => ?_, fun op W => funext fun b => ?_⟩
  · unfold blit1dChecks misalignedBases
    rw [hbase, hsrc, hcap]
  · simp only [blit1dRun, hbase, hcap, hx, hsrc, hw]

/-- The checks and the memory work of both rectangular blits read eight descriptors (10_state.md R23). -/
theorem blit2d_congr {d d' : Descriptors} (hbase : d.dstBase = d'.dstBase) (hcap : d.dstCap = d'.dstCap)
    (hrows : d.dstRows = d'.dstRows) (hx : d.dstX = d'.dstX) (hy : d.dstY = d'.dstY) (hsrc : d.srcBase = d'.srcBase)
    (hw : d.srcW = d'.srcW) (hh : d.srcH = d'.srcH) :
    (∀ wd ws, blit2dChecks d wd ws = blit2dChecks d' wd ws) ∧ (∀ op W, blit2dRun op W d = blit2dRun op W d') ∧
      ∀ op W, blit2dpRun op W d = blit2dpRun op W d' := by
  have hclip : ∀ W, clip2d d W = clip2d d' W := fun W => by simp only [clip2d, hcap, hrows, hx, hy, hw, hh]
  refine ⟨fun wd ws => ?_, fun op W => funext fun b => ?_, fun op W => funext fun b => ?_⟩
  · unfold blit2dChecks misalignedBases
    rw [hbase, hsrc, hcap, hrows]
  · simp only [blit2dRun, hclip, hbase, hsrc]
  · have hpixel : ∀ g r x, pixelStep op W d g r x = pixelStep op W d' g r x := fun g r x => funext fun b => by
      simp only [pixelStep, hbase, hsrc]
    simp only [blit2dpRun, hclip, hpixel]

/-- The checks and the memory work of PACK read three descriptors (10_state.md R23). -/
theorem pack_congr {d d' : Descriptors} (hbase : d.dstBase = d'.dstBase) (hsrc : d.srcBase = d'.srcBase)
    (hshift : d.shift = d'.shift) :
    (∀ wd ws, packChecks d wd ws = packChecks d' wd ws) ∧
      ∀ op Wd Ws, packRun op Wd Ws d = packRun op Wd Ws d' := by
  refine ⟨fun wd ws => ?_, fun op Wd Ws => funext fun b => ?_⟩
  · unfold packChecks misalignedBases
    rw [hbase, hsrc, hshift]
  · simp only [packRun, hbase, hsrc, hshift]

/-- The result of RMW reads four descriptors (10_state.md R23). -/
theorem rmwResult_congr {d d' : Descriptors} (hshift : d.shift = d'.shift) (hmask : d.mask = d'.mask)
    (hopa : d.opa = d'.opa) (hopb : d.opb = d'.opb) (op : Op) (Wd Ws : Nat) :
    rmwResult op Wd Ws d = rmwResult op Wd Ws d' := by
  simp only [rmwResult, signedShift, hshift, hmask, hopa, hopb]

/-- A command has the same effect from states that agree on what it reads, family by family. -/
theorem exec_sameEffect (i : Instr) {s s' : State} (hregs : ∀ r ∈ readsRegs i, s.readReg r = s'.readReg r)
    (hmem : s.mem = s'.mem) (hholes : s.holes = s'.holes) : SameEffect s s' (exec i s) (exec i s') := by
  rcases instr_family i with ⟨o, wd, ws, rfl⟩ | ⟨op, wd, ws, rfl | rfl | rfl | rfl | rfl⟩
  · exact sameEffect_next hmem
  · simp only [readsRegs_rmw, List.forall_mem_cons, State.readReg] at hregs
    obtain ⟨hshift, hmask, hopa, hopb, -⟩ := hregs
    rw [exec_rmw, exec_rmw]
    refine sameEffect_accept hmem _ fun W => ?_
    rw [rmwResult_congr hshift hmask hopa hopb]
    exact sameEffect_result hmem _
  · simp only [readsRegs_blit1d, List.forall_mem_cons, State.readReg] at hregs
    obtain ⟨hbase, hcap, hx, hsrc, hw, -⟩ := hregs
    obtain ⟨hchecks, hrun⟩ := blit1d_congr hbase hcap hx hsrc hw
    rw [exec_blit1d, exec_blit1d, blit1dCommand, blit1dCommand, hchecks]
    exact sameEffect_accept hmem _ fun W => hrun op W ▸ sameEffect_finish hmem hholes _
  · simp only [readsRegs_blit2d, rectRegs, List.forall_mem_cons, State.readReg] at hregs
    obtain ⟨hbase, hcap, hrows, hx, hy, hsrc, hw, hh, -⟩ := hregs
    obtain ⟨hchecks, hrun, -⟩ := blit2d_congr hbase hcap hrows hx hy hsrc hw hh
    rw [exec_blit2d, exec_blit2d, blit2dCommand, blit2dCommand, hchecks]
    exact sameEffect_accept hmem _ fun W => hrun op W ▸ sameEffect_finish hmem hholes _
  · simp only [readsRegs_blit2dp, rectRegs, List.forall_mem_cons, State.readReg] at hregs
    obtain ⟨hbase, hcap, hrows, hx, hy, hsrc, hw, hh, -⟩ := hregs
    obtain ⟨hchecks, -, hrun⟩ := blit2d_congr hbase hcap hrows hx hy hsrc hw hh
    rw [exec_blit2dp, exec_blit2dp, blit2dpCommand, blit2dpCommand, hchecks]
    exact sameEffect_accept hmem _ fun W => hrun op W ▸ sameEffect_finish hmem hholes _
  · simp only [readsRegs_pack, List.forall_mem_cons, State.readReg] at hregs
    obtain ⟨hbase, hsrc, hshift, -⟩ := hregs
    obtain ⟨hchecks, hrun⟩ := pack_congr hbase hsrc hshift
    rw [exec_pack, exec_pack, packCommand, packCommand, hchecks]
    exact sameEffect_accept hmem _ fun W => hrun op W.1 W.2 ▸ sameEffect_finish hmem hholes _

/-- Settles O43: the checks, the memory work and the result of each family are functions of what it reads. -/
theorem commandDependsOnlyOnWhatItReads : Obligations.CommandDependsOnlyOnWhatItReads :=
  fun i _ _ hregs hmem hholes => exec_sameEffect i hregs hmem hholes

end Sys2Proof.Machine
end

section
/-! Memory and the master port (20_memory.md R50 to R71): bits and bytes of memory, what a record of accesses says of
memory, and when a command is stuck. -/

namespace Sys2Proof.Machine

/-! ### Bits of a buffer, bytes of the host -/

/-- The bytes of consecutive elements are consecutive bytes of the buffer (20_memory.md R52, R53). -/
theorem byteAddr_elemAddr (base : Word) (i W j : Nat) :
    byteAddr (elemAddr base i W) j = byteAddr base (i * (W / 8) + j) := by
  rw [byteAddr, elemAddr, byteAddr, BitVec.add_assoc, BitVec.ofNat_add]

/-- Settles O47: bit i mod W of element i div W lies in its byte (i mod W) div 8, byte i div 8 of the buffer. -/
theorem flatBitsDoNotDependOnWidth : Obligations.FlatBitsDoNotDependOnWidth := by
  unfold Obligations.FlatBitsDoNotDependOnWidth
  intro m base W i hW
  have hbyte : (0 + i / W) * (W / 8) + i % W / 8 = i / 8 := by rcases hW with rfl | rfl | rfl <;> omega
  have hbit : i % W % 8 = i % 8 := by rcases hW with rfl | rfl | rfl <;> omega
  rw [rowBit, Memory.readElem_getLsbD m _ (by omega) (Nat.mod_lt _ (by omega)), byteAddr_elemAddr, hbyte, hbit, memBit]

/-- Settles O49: the store is one byte written, and no register lies in memory. -/
theorem hostStoreReachesMemory : Obligations.HostStoreReachesMemory := by
  unfold Obligations.HostStoreReachesMemory
  intro s a v rest hp ha
  refine ⟨{ s.take rest with mem := s.mem.write a.toNat v }, ?_, fun x => Memory.read_write _ _ _ _, fun r => ?_,
    rfl, rfl, rfl⟩
  · rw [step_cons hp]
    exact State.hostMemory_next.2 ⟨ha, rfl⟩
  · cases r <;> rfl

/-! ### Memory after a command is the record replayed -/

/-- One more element write, recorded with its value zero-extended to a register word, replayed last. -/
theorem replay_dstWrite (m : Memory) (l : List BusAccess) (a : Word) {W : Nat} (hW : W ≤ 32) (v : BitVec W) :
    replay m (l ++ [.dstWrite a (W / 8) (v.setWidth 32)]) = (replay m l).writeElem a v := by
  have hv : (v.setWidth 32).toNat = v.toNat :=
    BitVec.toNat_setWidth_of_le hW
  rw [replay_append, Memory.writeElem, ← hv]
  rfl

/-- Every element access keeps memory equal to the record replayed on the memory m the command began with. -/
theorem replayed_kept (m : Memory) {d : Descriptors} {Wd Ws : Nat} (h : AlignedElements d Wd Ws) :
    KeptByAccesses d.dstBase d.srcBase Wd Ws fun b => b.mem = replay m b.log where
  srcRead i b hb := by rw [srcRead_mem, srcRead_log, replay_append]; exact hb
  dstRead i b hb := by rw [dstRead_mem, dstRead_log, replay_append]; exact hb
  dstWrite i v b hb := by
    have hW := h.dstWidth
    rw [dstWrite_mem, dstWrite_log, replay_dstWrite _ _ _ (by omega), hb]

/-- What a command adds to the record accounts for all it does to memory. -/
theorem exec_replay {i : Instr} {s t : State} (h : exec i s = .next t) :
    ∃ accs, t.trace = s.trace ++ accs ∧ t.mem = replay s.mem accs := by
  rcases exec_cases i s with he | ⟨e, he⟩ | ⟨v, he⟩ | ⟨run, hrun, he⟩ <;> rw [he] at h
  case inr.inr.inr =>
    obtain ⟨-, rfl⟩ := State.finish_next.1 h
    exact ⟨_, rfl, hrun.keeps (fun _ _ => replayed_kept s.mem) rfl⟩
  all_goals
    obtain rfl := Host.Outcome.next.inj h
    exact ⟨[], by simp, rfl⟩

/-- Settles O41: the record replayed, which touches no byte outside its writes. -/
theorem memoryChangesOnlyByRecordedWrites : Obligations.MemoryChangesOnlyByRecordedWrites := by
  unfold Obligations.MemoryChangesOnlyByRecordedWrites
  intro i s t h
  obtain ⟨accs, htrace, hmem⟩ := exec_replay h
  refine ⟨accs, htrace, hmem, fun a ha => ?_⟩
  rw [hmem]
  exact read_replay_other _ _ _ fun b n v hw j hj he => ha b n v hw j hj (BitVec.eq_of_toNat_eq he)

/-! ### When a command is stuck -/

/-- The answer `o` of a command under the holes of s, against its answer `o'` where every access completes: the same
when the accesses it records complete, stuck otherwise (20_memory.md R71). -/
def StuckByHoles (s : State) (o o' : Host.Outcome State Fault Refusal) : Prop :=
  ∀ (t : State) (accs : List BusAccess), o' = .next t → t.trace = s.trace ++ accs →
    o = if accs.all (completes s.holes) then .next { t with holes := s.holes } else .fault .accessNotCompleted

section stuck
variable {s : State}

/-- A command that makes no access completes. -/
theorem stuckByHoles_next {u : State} (htrace : u.trace = s.trace) (hholes : u.holes = s.holes) :
    StuckByHoles s (.next u) (.next { u with holes := [] }) := by
  rintro t accs ht hl
  obtain rfl := Host.Outcome.next.inj ht
  obtain rfl : accs = [] := by simpa [htrace] using hl
  simp [← hholes]

/-- A command on memory makes the same accesses, whichever of them complete. -/
theorem stuckByHoles_finish (run : Bus → Bus) :
    StuckByHoles s (s.finish run) (({ s with holes := [] } : State).finish run) := by
  intro t accs ht hl
  obtain ⟨-, rfl⟩ := State.finish_next.1 ht
  obtain rfl := List.append_cancel_left hl
  rfl

theorem stuckByHoles_accept {α : Type} (checks : Except CfgErr α) {run run' : α → Host.Outcome State Fault Refusal}
    (hrun : ∀ a, StuckByHoles s (run a) (run' a)) :
    StuckByHoles s (s.accept checks run) (({ s with holes := [] } : State).accept checks run') := by
  cases checks with
  | error e => exact stuckByHoles_next (u := s.refuse e) rfl rfl
  | ok a => exact hrun a

end stuck

/-- Settles O44: NOP and RMW make no access, the other families run on memory after checks that see no hole. -/
theorem stuckExactlyWhenAccessNotCompleted : Obligations.StuckExactlyWhenAccessNotCompleted := by
  suffices h : ∀ (i : Instr) (s : State), StuckByHoles s (exec i s) (exec i { s with holes := [] }) from
    fun i s t accs => h i s t accs
  intro i s
  rcases instr_family i with ⟨o, wd, ws, rfl⟩ | ⟨op, wd, ws, rfl | rfl | rfl | rfl | rfl⟩
  · exact stuckByHoles_next (u := s) rfl rfl
  · rw [exec_rmw, exec_rmw]
    exact stuckByHoles_accept _ fun W => stuckByHoles_next (u := { s with res := rmwResult op W.1 W.2 s.desc }) rfl rfl
  · rw [exec_blit1d, exec_blit1d]
    exact stuckByHoles_accept _ fun W => stuckByHoles_finish _
  · rw [exec_blit2d, exec_blit2d]
    exact stuckByHoles_accept _ fun W => stuckByHoles_finish _
  · rw [exec_blit2dp, exec_blit2dp]
    exact stuckByHoles_accept _ fun W => stuckByHoles_finish _
  · rw [exec_pack, exec_pack]
    exact stuckByHoles_accept _ fun W => stuckByHoles_finish _

end Sys2Proof.Machine
end

section
/-! The accesses each routine makes, in order (41_blit1d.md R132, 42_blit2d.md R159, 43_pack.md R187), and that the
destination accesses among them stay in the destination (20_memory.md R58). -/

namespace Sys2Proof.Machine

/-! ### The record of a routine, values left out -/

/-- The record of accesses in the form in which the rules list them. -/
def Bus.shapes (b : Bus) : List BusAccess := b.log.map BusAccess.shape

/-- A loop whose pass k records the accesses g k records those of all passes, in order. -/
theorem iterate_record {α : Type} {record : α → List BusAccess} {f : Nat → α → α} {g : Nat → List BusAccess} {n : Nat}
    (h : ∀ k < n, ∀ x, record (f k x) = record x ++ g k) (a : α) :
    record (iterate f n a) = record a ++ (List.range n).flatMap g := by
  induction n with
  | zero => simp
  | succ n ih =>
    rw [iterate_succ, h n (by omega), ih fun k hk => h k (by omega), List.range_succ, List.flatMap_append]
    simp

section elements
variable (op : Op) (W : Nat) (dst src : Word) (de se : Nat)

@[simp] theorem srcRead_shapes (i : Nat) (b : Bus) :
    (srcRead src W i b).2.shapes = b.shapes ++ [.srcRead (elemAddr src i W) (W / 8)] := by
  simp [Bus.shapes, BusAccess.shape]

@[simp] theorem dstRead_shapes (i : Nat) (b : Bus) :
    (dstRead dst W i b).2.shapes = b.shapes ++ [.dstRead (elemAddr dst i W) (W / 8)] := by
  simp [Bus.shapes, BusAccess.shape]

@[simp] theorem dstWrite_shapes (i : Nat) (v : BitVec W) (b : Bus) :
    (dstWrite dst i v b).shapes = b.shapes ++ [.dstWrite (elemAddr dst i W) (W / 8) 0] := by
  simp [Bus.shapes, BusAccess.shape]

@[simp] theorem rmwElem_shapes (M : BitVec W) (sh : Int) (b : Bus) :
    (rmwElem op W dst src de se M sh b).shapes =
      b.shapes ++ [.srcRead (elemAddr src se W) (W / 8), .dstRead (elemAddr dst de W) (W / 8),
        .dstWrite (elemAddr dst de W) (W / 8) 0] := by
  simp [rmwElem]

@[simp] theorem copyElem_shapes (b : Bus) :
    (copyElem W dst src de se b).shapes =
      b.shapes ++ [.srcRead (elemAddr src se W) (W / 8), .dstWrite (elemAddr dst de W) (W / 8) 0] := by
  simp [copyElem]

/-- A covered element of the aligned path is not read under COPY (41_blit1d.md R126). -/
theorem alignedElem_shapes (b : Bus) :
    (alignedElem op W dst src de se b).shapes =
      b.shapes ++
        if op = .copy then [.srcRead (elemAddr src se W) (W / 8), .dstWrite (elemAddr dst de W) (W / 8) 0]
        else [.srcRead (elemAddr src se W) (W / 8), .dstRead (elemAddr dst de W) (W / 8),
          .dstWrite (elemAddr dst de W) (W / 8) 0] := by
  rw [alignedElem_eq]
  split <;> simp

/-- A later element of the unaligned path reads the source only when it has a high part (41_blit1d.md R128, R129). -/
theorem laterElem_shapes (p top : Nat) (st : BitVec W × Bus) :
    (laterElem op W dst src de se p top st).2.shapes =
      st.2.shapes ++
        if p < top then [.dstRead (elemAddr dst de W) (W / 8), .srcRead (elemAddr src se W) (W / 8),
          .dstWrite (elemAddr dst de W) (W / 8) 0]
        else [.dstRead (elemAddr dst de W) (W / 8), .dstWrite (elemAddr dst de W) (W / 8) 0] := by
  by_cases h : p < top
  · simp [laterElem_high op W dst src de se h, h]
  · simp [laterElem_low op W dst src de se h, h]

end elements

/-! ### The three cases of the linear blit -/

section rows
variable {op : Op} {W : Nat} {dst src : Word} {de se p n : Nat}

theorem rowAccesses_empty : rowAccesses op W dst src de se p 0 = [] := rfl

theorem rowAccesses_subElement (hn : n ≠ 0) (hs : p + n ≤ W) :
    rowAccesses op W dst src de se p n =
      [.srcRead (elemAddr src se W) (W / 8), .dstRead (elemAddr dst de W) (W / 8),
        .dstWrite (elemAddr dst de W) (W / 8) 0] := by
  simp [rowAccesses, hn, hs]

theorem alignedPath_shapes (hn : n ≠ 0) (hs : ¬ n ≤ W) (b : Bus) :
    (alignedPath op W dst src de se n b).shapes = b.shapes ++ rowAccesses op W dst src de se 0 n := by
  have hbulk := iterate_record (n := n / W) (record := Bus.shapes)
    (fun k _ x => alignedElem_shapes op W dst src (de + k) (se + k) x) b
  unfold alignedPath
  by_cases ht : n % W = 0
  · simp [rowAccesses, hn, hs, ht, hbulk]
  · simp [rowAccesses, hn, hs, ht, hbulk]

/-- The high part of later element j + 1 is empty exactly when the run does not reach source element j + 1. -/
theorem laterElem_reaches (hp : p < W) {j : Nat} (hj : j < (p + n - 1) / W) :
    (p < if j + 1 = (p + n - 1) / W then p + n - (p + n - 1) / W * W else W) ↔ (j + 1) * W < n := by
  have hle : (j + 1) * W ≤ (p + n - 1) / W * W := Nat.mul_le_mul_right _ hj
  have hend : (p + n - 1) / W * W ≤ p + n - 1 := Nat.div_mul_le_self _ _
  split
  · rename_i h
    rw [h]
    omega
  · rename_i h
    have : (j + 2) * W ≤ (p + n - 1) / W * W := Nat.mul_le_mul_right _ (by omega)
    rw [Nat.add_mul] at this hle ⊢
    omega

theorem unalignedPath_shapes (hn : n ≠ 0) (hs : ¬ p + n ≤ W) (hp : p ≠ 0) (hpW : p < W) (b : Bus) :
    (unalignedPath op W dst src de se p n b).shapes = b.shapes ++ rowAccesses op W dst src de se p n := by
  rw [unalignedPath, iterate_record (record := fun st : BitVec W × Bus => st.2.shapes) fun j hj st => by
    rw [laterElem_shapes, if_congr (laterElem_reaches hpW hj) rfl rfl]]
  simp [rowAccesses, hn, hs, hp]

/-- Blit1D makes the accesses of its clipped run (41_blit1d.md R132). -/
theorem blit1d_shapes (hW : 0 < W) (dbase cap off sbase len : Nat) (b : Bus) :
    (blit1d op W dst src dbase cap off sbase len b).shapes =
      b.shapes ++ rowAccesses op W dst src (dbase + off / W) sbase (off % W) (clip1d cap off len W) := by
  by_cases hn : clip1d cap off len W = 0
  · rw [blit1d_empty hn, hn, rowAccesses_empty, List.append_nil]
  by_cases hs : off % W + clip1d cap off len W ≤ W
  · rw [blit1d_subElement hn hs, rmwElem_shapes, rowAccesses_subElement hn hs]
  by_cases hp : off % W = 0
  · rw [blit1d_aligned hn hs hp, alignedPath_shapes hn (by omega), hp]
  · rw [blit1d_unaligned hn hs hp, unalignedPath_shapes hn hs hp (Nat.mod_lt _ hW)]

end rows

/-! ### The commands -/

section runs
variable {W : Nat} (op : Op) (d : Descriptors) (b : Bus)

theorem blit1dRun_shapes (hW : 0 < W) : (blit1dRun op W d b).shapes = b.shapes ++ blit1dAccesses op W d := by
  rw [blit1dRun, blit1d_shapes hW, Nat.zero_add]
  rfl

/-- BLIT2D makes the accesses of each row, whose width the clamp inside Blit1D keeps (42_blit2d.md R154, R159). -/
theorem blit2dRun_shapes (hW : 0 < W) : (blit2dRun op W d b).shapes = b.shapes ++ blit2dAccesses op W d := by
  unfold blit2dRun blit2dAccesses
  dsimp only
  split
  · rename_i h
    rcases h with h | h <;> simp [h, rowAccesses_empty]
  · rename_i h
    have hclip : clip1d (clip2d d W).stride (clip2d d W).X (clip2d d W).wclip W = (clip2d d W).wclip :=
      clip1d_clipSide hW (not_or.1 h).1
    refine iterate_record (fun r _ x => ?_) b
    rw [blit1d_shapes hW, hclip]
    rfl

@[simp] theorem pixelStep_shapes (g : Rect) (r x : Nat) :
    (pixelStep op W d g r x b).shapes =
      b.shapes ++ [.srcRead (elemAddr d.srcBase (r * g.pitch + x / W) W) (W / 8),
        .dstRead (elemAddr d.dstBase ((g.Y + r) * g.stride + (g.X + x) / W) W) (W / 8),
        .dstWrite (elemAddr d.dstBase ((g.Y + r) * g.stride + (g.X + x) / W) W) (W / 8) 0] := by
  simp [pixelStep]

theorem blit2dpRun_shapes : (blit2dpRun op W d b).shapes = b.shapes ++ blit2dpAccesses W d := by
  unfold blit2dpRun blit2dpAccesses
  dsimp only
  split
  · rename_i h
    rcases h with h | h <;> simp [h]
  · exact iterate_record (fun r _ x => iterate_record (fun k _ y => pixelStep_shapes op d y _ r k) x) b

/-- A slot of PACK reads the next source element with a carry, or when another slot follows (43_pack.md R186). -/
theorem packSlot_shapes {Wd Ws : Nat} (src : Word) (s N k : Nat) (h : PackHeld Wd Ws) :
    (packSlot op Wd Ws src s N k h).bus.shapes =
      h.bus.shapes ++ if s ≠ 0 ∨ k + 1 ≤ N - 1 then [.srcRead (elemAddr src (k + 1) Ws) (Ws / 8)] else [] := by
  by_cases hs : s = 0
  · subst hs
    by_cases hk : k + 1 ≤ N - 1
    · simp [packSlot_plain hk, hk]
    · simp [packSlot_last hk, hk]
  · simp [packSlot_carry hs, hs]

/-- The source elements 0 to K: the first, then one a slot. -/
theorem range_succ_map_eq_slots (K : Nat) (read : Nat → BusAccess) :
    (List.range (K + 1)).map read = read 0 :: (List.range K).flatMap fun k => [read (k + 1)] := by
  rw [List.range_succ_eq_map, List.map_cons, List.map_map, List.map_eq_flatMap]
  rfl

/-- The reads of PACK's slots, after the first one, are those of 43_pack.md R187: all slots read with a carry, all but
the last without. -/
theorem packReads_eq_slots {Wd Ws : Nat} (hN : 0 < Wd / Ws) (read : Nat → BusAccess) :
    (List.range (packReads d Wd Ws)).map read =
      read 0 :: (List.range (Wd / Ws)).flatMap fun k =>
        if d.shift.toNat ≠ 0 ∨ k + 1 ≤ Wd / Ws - 1 then [read (k + 1)] else [] := by
  by_cases hs : d.shift = 0
  · obtain ⟨M, hM⟩ : ∃ M, Wd / Ws = M + 1 := ⟨Wd / Ws - 1, by omega⟩
    rw [packReads, if_pos hs, hM, range_succ_map_eq_slots, List.range_succ, List.flatMap_append]
    have hslots : ∀ k ∈ List.range M, [read (k + 1)] =
        if d.shift.toNat ≠ 0 ∨ k + 1 ≤ M + 1 - 1 then [read (k + 1)] else [] := fun k hk => by
      have := List.mem_range.1 hk
      rw [if_pos (.inr (by omega))]
    rw [List.flatMap_congr hslots]
    simp [hs]
  · have hs' : d.shift.toNat ≠ 0 := fun h => hs (BitVec.eq_of_toNat_eq h)
    rw [packReads, if_neg hs, range_succ_map_eq_slots]
    simp [hs']

theorem packRun_shapes {Wd Ws : Nat} (hN : 0 < Wd / Ws) :
    (packRun op Wd Ws d b).shapes = b.shapes ++ packAccesses Wd Ws d := by
  unfold packRun packAccesses
  dsimp only
  rw [dstWrite_shapes, iterate_record (record := fun h : PackHeld Wd Ws => h.bus.shapes) fun k _ h =>
    packSlot_shapes op d.srcBase d.shift.toNat (Wd / Ws) k h, packReads_eq_slots d hN]
  simp

end runs

/-! ### The destination accesses stay in the destination -/

/-- A source read, or an access to an element of the destination below the bound (20_memory.md R58). -/
def BusAccess.inDest (base : Word) (W bound : Nat) (x : BusAccess) : Prop :=
  (∃ a n, x = .srcRead a n) ∨ ∃ e < bound, x.addr = elemAddr base e W ∧ x.size = W / 8

section bounds
variable {base : Word} {W bound : Nat}

@[simp] theorem inDest_srcRead (a : Word) (n : Nat) : (BusAccess.srcRead a n).inDest base W bound := .inl ⟨a, n, rfl⟩

theorem inDest_dstRead {e : Nat} (h : e < bound) :
    (BusAccess.dstRead (elemAddr base e W) (W / 8)).inDest base W bound :=
  .inr ⟨e, h, rfl, rfl⟩

theorem inDest_dstWrite {e : Nat} (h : e < bound) (v : Word) :
    (BusAccess.dstWrite (elemAddr base e W) (W / 8) v).inDest base W bound :=
  .inr ⟨e, h, rfl, rfl⟩

theorem inDest_of_shape {x : BusAccess} (h : x.shape.inDest base W bound) : x.inDest base W bound := by
  cases x with
  | srcRead a n => exact h
  | dstRead a n => exact h
  | dstWrite a n v =>
    rcases h with ⟨_, _, h⟩ | h
    · cases h
    · exact .inr h

/-- The destination elements of a run of n bits from bit p of element `de` are those that hold a bit of it. -/
theorem rowAccesses_inDest {op : Op} {src : Word} {de se p n : Nat} (hW : 0 < W)
    (h : ∀ i, i * W < p + n → de + i < bound) : ∀ x ∈ rowAccesses op W base src de se p n, x.inDest base W bound := by
  by_cases hn : n = 0
  · subst hn
    simp [rowAccesses_empty]
  have h0 : de < bound := h 0 (by omega)
  by_cases hs : p + n ≤ W
  · simp [rowAccesses_subElement hn hs, inDest_dstRead h0, inDest_dstWrite h0]
  by_cases hp : p = 0
  · subst hp
    have hbulk : ∀ k < n / W, de + k < bound := fun k hk => by
      have : (k + 1) * W ≤ n := (Nat.mul_le_mul_right _ hk).trans (Nat.div_mul_le_self _ _)
      rw [Nat.add_mul] at this
      exact h k (by omega)
    have htail : n % W ≠ 0 → de + n / W < bound := fun ht => h _ (by have := Nat.div_add_mod' n W; omega)
    simp only [rowAccesses, if_neg hn, if_neg hs, if_true, List.forall_mem_append, List.forall_mem_flatMap,
      List.mem_range]
    refine ⟨fun k hk => ?_, ?_⟩
    · split <;> simp [inDest_dstRead (hbulk k hk), inDest_dstWrite (hbulk k hk)]
    · split
      · simp
      · rename_i ht
        simp [inDest_dstRead (htail ht), inDest_dstWrite (htail ht)]
  · have hlater : ∀ j < (p + n - 1) / W, de + (j + 1) < bound := fun j hj => by
      have : (j + 1) * W ≤ p + n - 1 := (Nat.mul_le_mul_right _ hj).trans (Nat.div_mul_le_self _ _)
      exact h (j + 1) (by omega)
    simp only [rowAccesses, if_neg hn, if_neg hs, if_neg hp, List.forall_mem_append, List.forall_mem_flatMap,
      List.mem_range]
    refine ⟨by simp [inDest_dstRead h0, inDest_dstWrite h0], fun j hj => ?_⟩
    split <;> simp [inDest_dstRead (hlater j hj), inDest_dstWrite (hlater j hj)]

/-- A run from bit `off` that ends within `cap` elements touches elements below `cap` only (41_blit1d.md R122). -/
theorem element_lt_of_run {off n cap i : Nat} (hend : off + n ≤ cap * W) (hi : i * W < off % W + n) :
    off / W + i < cap := by
  have hoff := Nat.div_add_mod' off W
  refine Nat.lt_of_mul_lt_mul_right (a := W) ?_
  rw [Nat.add_mul]
  omega

/-- Element e of row y of a rectangle of `rows` rows of `stride` elements. -/
theorem rowElement_lt {y rows e stride : Nat} (hy : y < rows) (he : e < stride) : y * stride + e < stride * rows := by
  have : (y + 1) * stride ≤ rows * stride := Nat.mul_le_mul_right _ hy
  rw [Nat.add_mul, Nat.mul_comm rows] at this
  omega

variable {d : Descriptors}

theorem blit1dAccesses_inDest (hW : 0 < W) (op : Op) :
    ∀ x ∈ blit1dAccesses op W d, x.inDest d.dstBase W d.dstCap.toNat := by
  unfold blit1dAccesses
  by_cases hn : runLength d W = 0
  · simp [hn, rowAccesses_empty]
  · obtain ⟨-, -, -, hend⟩ := clip1d_pos hn
    exact rowAccesses_inDest hW fun i hi => element_lt_of_run hend hi

/-- The rows a clipped rectangle performs are rows of the destination (42_blit2d.md R151). -/
theorem clippedRow_lt {r : Nat} (hr : r < (clip2d d W).hclip) : d.dstY.toNat + r < d.dstRows.toNat := by
  obtain ⟨-, -, hend⟩ := clipSide_pos (show (clip2d d W).hclip ≠ 0 by omega)
  exact (Nat.add_lt_add_left hr _).trans_le hend

/-- The columns of a clipped rectangle end within a row (42_blit2d.md R151). -/
theorem clippedWidth_le (h : (clip2d d W).wclip ≠ 0) : d.dstX.toNat + (clip2d d W).wclip ≤ d.dstCap.toNat * W :=
  (clipSide_pos h).2.2

theorem blit2dAccesses_inDest (hW : 0 < W) (op : Op) :
    ∀ x ∈ blit2dAccesses op W d, x.inDest d.dstBase W (d.dstCap.toNat * d.dstRows.toNat) := by
  simp only [blit2dAccesses, List.forall_mem_flatMap, List.mem_range]
  intro r hr
  by_cases hw : (clip2d d W).wclip = 0
  · simp [hw, rowAccesses_empty]
  · refine rowAccesses_inDest hW fun i hi => ?_
    rw [Nat.add_assoc]
    exact rowElement_lt (clippedRow_lt hr) (element_lt_of_run (clippedWidth_le hw) hi)

theorem blit2dpAccesses_inDest (hW : 0 < W) :
    ∀ x ∈ blit2dpAccesses W d, x.inDest d.dstBase W (d.dstCap.toNat * d.dstRows.toNat) := by
  simp only [blit2dpAccesses, List.forall_mem_flatMap, List.mem_range]
  intro r hr x hx
  have hcol : (d.dstX.toNat + x) / W < d.dstCap.toNat :=
    (Nat.div_lt_iff_lt_mul hW).2 ((Nat.add_lt_add_left hx _).trans_le (clippedWidth_le (by omega)))
  have he := rowElement_lt (clippedRow_lt hr) hcol
  simp [inDest_dstRead he, inDest_dstWrite he]

theorem packAccesses_inDest {Ws : Nat} : ∀ x ∈ packAccesses W Ws d, x.inDest d.dstBase W 1 := by
  simp only [packAccesses, List.forall_mem_append, List.forall_mem_map, List.forall_mem_singleton]
  exact ⟨⟨inDest_dstRead one_pos, fun i _ => inDest_srcRead _ _⟩, inDest_dstWrite one_pos _⟩

/-- A checked command on memory records nothing when it is refused, and else the accesses of its memory work: these
are in the destination when the listed ones are. -/
theorem accept_finish_inDest {α : Type} {s t : State} {checks : Except CfgErr α} {run : α → Bus → Bus}
    {accs : List BusAccess} (h : s.accept checks (fun a => s.finish (run a)) = .next t) (ht : t.trace = s.trace ++ accs)
    (hrun : ∀ a, checks = .ok a → ∀ x ∈ (run a ⟨s.mem, []⟩).shapes, x.inDest base W bound) :
    ∀ x ∈ accs, x.inDest base W bound := by
  rcases State.accept_next.1 h with ⟨e, -, rfl⟩ | ⟨a, ha, hfin⟩
  · obtain rfl : accs = [] := by simpa using ht
    simp
  · obtain ⟨-, rfl⟩ := State.finish_next.1 hfin
    obtain rfl := List.append_cancel_left ht
    exact fun x hx => inDest_of_shape (hrun a ha _ (List.mem_map_of_mem hx))

end bounds

@[simp] theorem Bus.shapes_nil (m : Memory) : (Bus.mk m []).shapes = [] := rfl

theorem widthBits_pos {c : WidthCode} {W : Nat} (h : widthBits c = some W) : 0 < W := by
  have := widthBits_cases h
  omega

/-- Settles O42: the record of each family is the listed one, which stays in the destination. -/
theorem destinationAccessesInBounds : Obligations.DestinationAccessesInBounds := by
  unfold Obligations.DestinationAccessesInBounds
  intro op wd ws i s t W bound accs hi hwd h ht
  have hW := widthBits_pos hwd
  have same : ∀ {V : Nat}, sameWidth wd ws = .ok V → V = W := fun hV =>
    Option.some.inj ((sameWidth_ok.1 hV).1.symm.trans hwd)
  rcases hi with ⟨rfl, rfl⟩ | ⟨rfl, rfl⟩ | ⟨rfl, rfl⟩ | ⟨rfl, rfl⟩
  · rw [exec_blit1d] at h
    refine accept_finish_inDest h ht fun V hV => ?_
    obtain ⟨hw, -⟩ := blit1dChecks_ok.1 hV
    obtain rfl := same hw
    rw [blit1dRun_shapes op _ _ hW]
    exact blit1dAccesses_inDest hW op
  · rw [exec_blit2d] at h
    refine accept_finish_inDest h ht fun V hV => ?_
    obtain ⟨hw, -⟩ := blit2dChecks_ok.1 hV
    obtain rfl := same hw
    rw [blit2dRun_shapes op _ _ hW]
    exact blit2dAccesses_inDest hW op
  · rw [exec_blit2dp] at h
    refine accept_finish_inDest h ht fun V hV => ?_
    obtain ⟨hw, -⟩ := blit2dChecks_ok.1 hV
    obtain rfl := same hw
    rw [blit2dpRun_shapes]
    exact blit2dpAccesses_inDest hW
  · rw [exec_pack] at h
    refine accept_finish_inDest h ht fun V hV => ?_
    obtain ⟨hw, -⟩ := packChecks_ok.1 hV
    obtain ⟨hd, hs, hle⟩ := narrowWidths_ok.1 hw
    obtain rfl : V.1 = W := Option.some.inj (hd.symm.trans hwd)
    rw [packRun_shapes op _ _ (Nat.div_pos hle (widthBits_pos hs))]
    exact packAccesses_inDest

end Sys2Proof.Machine
end

section
/-! Command words (30_encoding.md R80 to R92): the fields of format C, which words decode and to what, the round trip of
the encoder and the decoder, and the register writes that set up a command. -/

namespace Sys2Proof.Machine

/-! ### The fields of format C -/

/-- A word is its six fields side by side (30_encoding.md R81). -/
theorem fields_append (w : Word) :
    fieldHigh w ++ fieldWs w ++ fieldWd w ++ fieldBit7 w ++ fieldOp w ++ fieldFunc w = w := by
  simp only [fieldHigh, fieldWs, fieldWd, fieldBit7, fieldOp, fieldFunc]
  iterate 5 rw [BitVec.extractLsb'_append_extractLsb'_eq_extractLsb' (by rfl)]
  exact BitVec.extractLsb'_eq_self

section fields
variable (f : Func) (op : BitVec 3) (wd ws : WidthCode)

@[simp] theorem fieldFunc_commandWord : fieldFunc (commandWord f op wd ws) = encodeFunc f :=
  BitVec.extractLsb'_append_eq_right

@[simp] theorem fieldOp_commandWord : fieldOp (commandWord f op wd ws) = op :=
  (BitVec.extractLsb'_append_eq_of_le (by decide)).trans BitVec.extractLsb'_append_eq_right

@[simp] theorem fieldBit7_commandWord : fieldBit7 (commandWord f op wd ws) = 0 := by
  unfold fieldBit7 commandWord
  iterate 2 refine (BitVec.extractLsb'_append_eq_of_le (by decide)).trans ?_
  exact BitVec.extractLsb'_append_eq_right

@[simp] theorem fieldWd_commandWord : fieldWd (commandWord f op wd ws) = encodeWidth wd := by
  unfold fieldWd commandWord
  iterate 3 refine (BitVec.extractLsb'_append_eq_of_le (by decide)).trans ?_
  exact BitVec.extractLsb'_append_eq_right

@[simp] theorem fieldWs_commandWord : fieldWs (commandWord f op wd ws) = encodeWidth ws := by
  unfold fieldWs commandWord
  iterate 4 refine (BitVec.extractLsb'_append_eq_of_le (by decide)).trans ?_
  exact BitVec.extractLsb'_append_eq_right

@[simp] theorem fieldHigh_commandWord : fieldHigh (commandWord f op wd ws) = 0 := by
  unfold fieldHigh commandWord
  iterate 4 refine (BitVec.extractLsb'_append_eq_of_le (by decide)).trans ?_
  exact BitVec.extractLsb'_append_eq_left

end fields

@[simp] theorem decodeWidth_encodeWidth (c : WidthCode) : decodeWidth (encodeWidth c) = c := by
  cases c <;> rfl

theorem decodeOp_eq_some {o : BitVec 3} {op : Op} : decodeOp o = some op ↔ o = encodeOp op := by
  revert o; cases op <;> decide

/-- The reserved bits of format C are 0 and FUNC is that of `f` (30_encoding.md R81, R82). -/
structure FormatC (w : Word) (f : Func) : Prop where
  high : fieldHigh w = 0
  bit7 : fieldBit7 w = 0
  func : fieldFunc w = encodeFunc f

theorem commandWord_formatC (f : Func) (op : BitVec 3) (wd ws : WidthCode) : FormatC (commandWord f op wd ws) f :=
  ⟨by simp, by simp, by simp⟩

/-- No bit of a word with the reserved bits at 0 is outside the fields of its command (30_encoding.md R81). -/
theorem FormatC.commandWord_fields {w : Word} {f : Func} (h : FormatC w f) :
    commandWord f (fieldOp w) (decodeWidth (fieldWd w)) (decodeWidth (fieldWs w)) = w := by
  rw [commandWord, encodeWidth_decodeWidth, encodeWidth_decodeWidth, ← h.func]
  have hw := fields_append w
  rwa [h.high, h.bit7] at hw

/-! ### What a word decodes to -/

/-- The FUNC values that carry an operation, each with its commands (30_encoding.md R82, R86). -/
inductive OperationFamily : Func → (Op → WidthCode → WidthCode → Instr) → Prop
  | rmw : OperationFamily .rmw .rmw
  | blit1d : OperationFamily .blit1d .blit1d
  | blit2d : OperationFamily .blit2d .blit2d
  | blit2dp : OperationFamily .blit2dp .blit2dp
  | pack : OperationFamily .pack .pack

theorem func_nop_or_operation (f : Func) : f = .nop ∨ ∃ mk, OperationFamily f mk := by
  cases f with
  | nop => exact .inl rfl
  | rmw => exact .inr ⟨_, .rmw⟩
  | blit1d => exact .inr ⟨_, .blit1d⟩
  | blit2d => exact .inr ⟨_, .blit2d⟩
  | blit2dp => exact .inr ⟨_, .blit2dp⟩
  | pack => exact .inr ⟨_, .pack⟩

section words
variable {w : Word} {f : Func} {mk : Op → WidthCode → WidthCode → Instr} {i : Instr}

theorem OperationFamily.encode_eq (hm : OperationFamily f mk) (op : Op) (wd ws : WidthCode) :
    encode (mk op wd ws) = commandWord f (encodeOp op) wd ws := by
  cases hm <;> cases op <;> rfl

/-- A command is NOP or one of a family with an operation. -/
theorem nop_or_operationFamily (i : Instr) :
    (∃ o wd ws, i = .nop o wd ws) ∨ ∃ f mk op wd ws, OperationFamily f mk ∧ i = mk op wd ws := by
  rcases instr_family i with h | ⟨op, wd, ws, h | h | h | h | h⟩
  · exact .inl h
  · exact .inr ⟨_, _, op, wd, ws, .rmw, h⟩
  · exact .inr ⟨_, _, op, wd, ws, .blit1d, h⟩
  · exact .inr ⟨_, _, op, wd, ws, .blit2d, h⟩
  · exact .inr ⟨_, _, op, wd, ws, .blit2dp, h⟩
  · exact .inr ⟨_, _, op, wd, ws, .pack, h⟩

/-- NOP looks at no other field (30_encoding.md R90). -/
theorem FormatC.decode_nop (h : FormatC w .nop) :
    decode w = .ok (.nop (fieldOp w) (decodeWidth (fieldWd w)) (decodeWidth (fieldWs w))) := by
  rw [decode, if_neg (by simp [h.high, h.bit7]), decodeFunc_eq_some.2 h.func]

/-- The other FUNC values look at OP next (30_encoding.md R90). -/
theorem FormatC.decode_operation (h : FormatC w f) (hm : OperationFamily f mk) : decode w = decodeWithOp mk w := by
  rw [decode, if_neg (by simp [h.high, h.bit7]), decodeFunc_eq_some.2 h.func]
  cases hm <;> rfl

theorem decodeWithOp_eq_ok :
    decodeWithOp mk w = .ok i ↔
      ∃ op, fieldOp w = encodeOp op ∧ i = mk op (decodeWidth (fieldWd w)) (decodeWidth (fieldWs w)) := by
  simp only [← decodeOp_eq_some, decodeWithOp]
  cases decodeOp (fieldOp w) <;> simp [eq_comm]

/-- A word that decodes has its reserved bits at 0 and a defined FUNC (30_encoding.md R82, R90). -/
theorem formatC_of_decode (h : decode w = .ok i) : ∃ f, FormatC w f := by
  unfold decode at h
  split at h
  · cases h
  rename_i hbits
  simp only [ne_eq, not_or, not_not] at hbits
  cases hf : decodeFunc (fieldFunc w) with
  | none => simp [hf] at h
  | some f => exact ⟨f, hbits.1, hbits.2, decodeFunc_eq_some.1 hf⟩

/-- What decodes, and to what (30_encoding.md R86): NOP with any fields, or a command of a family with a defined OP. -/
theorem decode_eq_ok :
    decode w = .ok i ↔
      (FormatC w .nop ∧ i = .nop (fieldOp w) (decodeWidth (fieldWd w)) (decodeWidth (fieldWs w))) ∨
        ∃ f mk op, FormatC w f ∧ OperationFamily f mk ∧ fieldOp w = encodeOp op ∧
          i = mk op (decodeWidth (fieldWd w)) (decodeWidth (fieldWs w)) := by
  constructor
  · intro h
    obtain ⟨f, hf⟩ := formatC_of_decode h
    rcases func_nop_or_operation f with rfl | ⟨mk, hm⟩
    · exact .inl ⟨hf, by simpa [hf.decode_nop, eq_comm] using h⟩
    · rw [hf.decode_operation hm, decodeWithOp_eq_ok] at h
      obtain ⟨op, hop, hi⟩ := h
      exact .inr ⟨f, mk, op, hf, hm, hop, hi⟩
  · rintro (⟨hf, rfl⟩ | ⟨f, mk, op, hf, hm, hop, rfl⟩)
    · exact hf.decode_nop
    · rw [hf.decode_operation hm, decodeWithOp_eq_ok]
      exact ⟨op, hop, rfl⟩

end words

/-! ### The statements about the encoding -/

/-- Settles O1: the fields of a command's word are those of the command, for NOP and for each family. -/
theorem decodeOfEncode : Obligations.DecodeOfEncode := by
  unfold Obligations.DecodeOfEncode
  intro i
  rw [decode_eq_ok]
  rcases nop_or_operationFamily i with ⟨op, wd, ws, rfl⟩ | ⟨f, mk, op, wd, ws, hm, rfl⟩
  · exact .inl ⟨commandWord_formatC .nop op wd ws, by simp [encode]⟩
  · rw [hm.encode_eq]
    exact .inr ⟨f, mk, op, commandWord_formatC f _ wd ws, hm, by simp, by simp⟩

/-- Settles O2: the fields of a word that decodes are those of its command, and no bit lies outside them. -/
theorem encodeOfDecode : Obligations.EncodeOfDecode := by
  unfold Obligations.EncodeOfDecode
  intro w i h
  rcases decode_eq_ok.1 h with ⟨hf, rfl⟩ | ⟨f, mk, op, hf, hm, hop, rfl⟩
  · exact hf.commandWord_fields
  · rw [hm.encode_eq, ← hop]
    exact hf.commandWord_fields

/-! ### The defined words as numbers -/

theorem formatC_iff {w : Word} {f : Func} :
    FormatC w f ↔ w.toNat / 4096 = 0 ∧ w.toNat / 128 % 2 = 0 ∧ w.toNat % 16 = (encodeFunc f).toNat := by
  have high : fieldHigh w = 0 ↔ w.toNat / 4096 = 0 := by
    rw [← not_iff_not, ← ne_eq, fieldHigh_ne_zero]
    omega
  have bit7 : fieldBit7 w = 0 ↔ w.toNat / 128 % 2 = 0 := by
    rw [← not_iff_not, ← ne_eq, fieldBit7_ne_zero]
    omega
  rw [← high, ← bit7, ← fieldFunc_toNat, BitVec.toNat_inj]
  exact ⟨fun ⟨hh, hb, hf⟩ => ⟨hh, hb, hf⟩, fun ⟨hh, hb, hf⟩ => ⟨hh, hb, hf⟩⟩

/-- FUNC 1 to 5 carry an operation (30_encoding.md R82). -/
theorem exists_operationFamily {n : Nat} :
    (∃ f mk, OperationFamily f mk ∧ n = (encodeFunc f).toNat) ↔ 1 ≤ n ∧ n ≤ 5 := by
  constructor
  · rintro ⟨f, mk, hm, rfl⟩
    cases hm <;> decide
  · rintro ⟨h1, h5⟩
    interval_cases n
    · exact ⟨_, _, .rmw, rfl⟩
    · exact ⟨_, _, .blit1d, rfl⟩
    · exact ⟨_, _, .blit2d, rfl⟩
    · exact ⟨_, _, .blit2dp, rfl⟩
    · exact ⟨_, _, .pack, rfl⟩

/-- OP 0 to 4 are the operations (30_encoding.md R83). -/
theorem exists_encodeOp {w : Word} : (∃ op, fieldOp w = encodeOp op) ↔ w.toNat / 16 % 8 ≤ 4 := by
  simp only [← decodeOp_eq_some, ← Option.isSome_iff_exists, ← Option.ne_none_iff_isSome, ne_eq, decodeOp_eq_none,
    fieldOp_toNat]
  omega

/-- Settles O3: the words of NOP's FUNC, and the words of the other defined FUNC values with a defined OP. -/
theorem decodeAcceptsDefinedWords : Obligations.DecodeAcceptsDefinedWords := by
  unfold Obligations.DecodeAcceptsDefinedWords
  intro w
  constructor
  · rintro ⟨i, h⟩
    rcases decode_eq_ok.1 h with ⟨hf, -⟩ | ⟨f, mk, op, hf, hm, hop, -⟩
    · obtain ⟨high, bit7, func⟩ := formatC_iff.1 hf
      exact ⟨high, bit7, .inl func⟩
    · obtain ⟨high, bit7, func⟩ := formatC_iff.1 hf
      obtain ⟨func1, func5⟩ := exists_operationFamily.1 ⟨f, mk, hm, func⟩
      exact ⟨high, bit7, .inr ⟨func1, func5, exists_encodeOp.1 ⟨op, hop⟩⟩⟩
  · rintro ⟨high, bit7, func | ⟨func1, func5, hop⟩⟩
    · exact ⟨_, decode_eq_ok.2 (.inl ⟨formatC_iff.2 ⟨high, bit7, func⟩, rfl⟩)⟩
    · obtain ⟨f, mk, hm, func⟩ := exists_operationFamily.2 ⟨func1, func5⟩
      obtain ⟨op, hop⟩ := exists_encodeOp.2 hop
      exact ⟨_, decode_eq_ok.2 (.inr ⟨f, mk, op, formatC_iff.2 ⟨high, bit7, func⟩, hm, hop, rfl⟩)⟩

/-- Settles O4: each word is that of its command (30_encoding.md R81). -/
theorem writtenOutWordsDecode : Obligations.WrittenOutWordsDecode :=
  ⟨decodeOfEncode (.nop 0 .w8 .w8), decodeOfEncode (.rmwXor .w32 .w8), decodeOfEncode (.blit1dCopy .w8 .w8),
    decodeOfEncode (.blit2dOr .w16 .w16), decodeOfEncode (.blit2dpXor .w8 .w8), decodeOfEncode (.packCopy .w16 .w8)⟩

/-! ### Setting up a command -/

/-- The host events of some register writes, in order (30_encoding.md R91). -/
def regWrites (ws : List (Reg × Word)) : List HostEvent := ws.map fun p => wr p.1 p.2

/-- The state after some register writes, none of them to CMD. -/
def State.setRegs (s : State) (ws : List (Reg × Word)) : State := ws.foldl (fun t p => t.setReg p.1 p.2) s

/-- A register write neither reads nor changes what taking an event sets. -/
theorem State.take_setReg (s : State) (r : Reg) (v : Word) (l rest : List HostEvent) :
    ((s.take l).setReg r v).take rest = (s.take rest).setReg r v := by
  cases r <;> rfl

theorem run_succ {s t : State} (h : core.step s = .next t) (k : Nat) : core.run (k + 1) s = core.run k t := by
  simp only [Host.Core.run, h]

/-- Register writes, one step each, of registers other than CMD. -/
theorem run_regWrites_of_pending {ws : List (Reg × Word)} (hne : ws ≠ []) (hcmd : ∀ p ∈ ws, p.1 ≠ .cmd) {s : State}
    {rest : List HostEvent} (hp : s.pending = regWrites ws ++ rest) :
    core.run ws.length s = .next ((s.take rest).setRegs ws) := by
  induction ws generalizing s with
  | nil => exact absurd rfl hne
  | cons p ws ih =>
    have hstep : core.step s = .next ((s.take (regWrites ws ++ rest)).setReg p.1 p.2) :=
      step_regWrite hp rfl (hcmd p (by simp))
    rw [List.length_cons, run_succ hstep]
    cases ws with
    | nil => rfl
    | cons q ws =>
      refine (ih (by simp) (fun x hx => hcmd x (by simp [hx])) (by simp)).trans ?_
      rw [State.take_setReg]
      rfl

/-- The writes put before the host's other events. -/
theorem run_regWrites (ws : List (Reg × Word)) (hne : ws ≠ []) (hcmd : ∀ p ∈ ws, p.1 ≠ .cmd) (s : State)
    (rest : List HostEvent) :
    core.run ws.length ({ s with pending := regWrites ws ++ rest } : State) = .next ((s.take rest).setRegs ws) :=
  run_regWrites_of_pending (s := { s with pending := _ }) hne hcmd rfl

/-- Settles O12: each set-up is a list of register writes, none of them to CMD. -/
theorem setupMacrosFillDescriptors : Obligations.SetupMacrosFillDescriptors := by
  unfold Obligations.SetupMacrosFillDescriptors
  intro s a b c d e f g h rest
  refine
    ⟨(run_regWrites [(.dstBase, a), (.dstCap, b), (.dstX, c), (.srcBase, d), (.srcW, e)] ?_ ?_ s rest).trans ?_,
      (run_regWrites [(.dstBase, a), (.dstCap, b), (.dstRows, c), (.dstX, d), (.dstY, e), (.srcBase, f), (.srcW, g),
        (.srcH, h)] ?_ ?_ s rest).trans ?_,
      (run_regWrites [(.dstBase, a), (.srcBase, b), (.shift, c)] ?_ ?_ s rest).trans ?_,
      (run_regWrites [(.opa, a), (.opb, b), (.mask, c), (.shift, d)] ?_ ?_ s rest).trans ?_⟩
  all_goals simp [State.setRegs, State.setReg, State.take]

end Sys2Proof.Machine
end

section
/-! The masked transform (40_rmw.md R100 to R115): its shift as a product or quotient by a power of two, its result bit
by bit, what follows from the bits, and the RMW command (R112). -/

namespace Sys2Proof.Machine

/-! ### The shift (40_rmw.md R102) -/

/-- A left shift by any amount: one of the width or more leaves nothing. -/
theorem shiftSource_natCast {W : Nat} (x : BitVec W) (n : Nat) : shiftSource x (n : Int) = x <<< n := by
  rw [shiftSource, Int.natAbs_natCast]
  split_ifs with hW h0
  · exact (BitVec.shiftLeft_eq_zero hW).symm
  · rfl
  · exact absurd (Int.natCast_nonneg n) h0

/-- A right shift by any amount: one of the width or more leaves nothing. -/
theorem shiftSource_neg_natCast {W : Nat} (x : BitVec W) (n : Nat) : shiftSource x (-(n : Int)) = x >>> n := by
  rw [shiftSource, Int.natAbs_neg, Int.natAbs_natCast]
  split_ifs with hW h0
  · exact (BitVec.ushiftRight_eq_zero hW).symm
  · obtain rfl : n = 0 := by omega
    simp
  · rfl

/-- Settles O18: a left shift multiplies by a power of two and cuts at the width, a right shift divides. -/
theorem rmwShiftIsFloorOfProduct : Obligations.RmwShiftIsFloorOfProduct := by
  unfold Obligations.RmwShiftIsFloorOfProduct
  intro W x sh
  constructor
  · intro h
    obtain ⟨n, rfl⟩ := Int.eq_ofNat_of_zero_le h
    rw [shiftSource_natCast, BitVec.toNat_shiftLeft, Nat.shiftLeft_eq, Int.toNat_natCast]
  · intro h
    obtain ⟨n, rfl⟩ := Int.exists_eq_neg_ofNat h.le
    rw [shiftSource_neg_natCast, BitVec.toNat_ushiftRight, Nat.shiftRight_eq_div_pow, Int.neg_neg, Int.toNat_natCast]

/-! ### The result bit by bit (40_rmw.md R109) -/

/-- The table applied again with the same source bit: XOR gives the first bit back, the others change nothing more. -/
theorem opBit_opBit (op : Op) (d s : Bool) : opBit op (opBit op d s) s = if op = .xor then d else opBit op d s := by
  cases op <;> cases d <;> cases s <;> rfl

/-- COPY and INV do not read the destination bit. -/
theorem opBit_eq_of_copy_or_inv {op : Op} (h : op = .copy ∨ op = .inv) (d d' s : Bool) :
    opBit op d s = opBit op d' s := by
  rcases h with rfl | rfl <;> rfl

/-- The combination under a mask acts bit by bit, by the table of one bit (40_rmw.md R104 to R109). -/
theorem combine_getLsbD (op : Op) {W : Nat} (D Sh M : BitVec W) {b : Nat} (hb : b < W) :
    (combine op D Sh M).getLsbD b =
      if M.getLsbD b then opBit op (D.getLsbD b) (Sh.getLsbD b) else D.getLsbD b := by
  cases op
  all_goals
    simp only [combine, opBit, BitVec.getLsbD_and, BitVec.getLsbD_or, BitVec.getLsbD_xor, BitVec.getLsbD_not, hb,
      decide_true, Bool.true_and]
    cases M.getLsbD b <;> simp

theorem getLsbD_and_not {W : Nat} (x m : BitVec W) {b : Nat} (hb : b < W) :
    (x &&& ~~~m).getLsbD b = (x.getLsbD b && !m.getLsbD b) := by
  rw [BitVec.getLsbD_and, BitVec.getLsbD_not, decide_eq_true hb, Bool.true_and]

/-- Values that agree outside a mask are those with the same bits there. -/
theorem and_not_eq_iff {W : Nat} {x y m : BitVec W} :
    x &&& ~~~m = y &&& ~~~m ↔ ∀ b < W, m.getLsbD b = false → x.getLsbD b = y.getLsbD b := by
  constructor
  · intro h b hb hm
    have hbit : (x &&& ~~~m).getLsbD b = (y &&& ~~~m).getLsbD b := by rw [h]
    simpa only [getLsbD_and_not _ _ hb, hm, Bool.not_false, Bool.and_true] using hbit
  · intro h
    refine BitVec.eq_of_getLsbD_eq fun b hb => ?_
    rw [getLsbD_and_not x m hb, getLsbD_and_not y m hb]
    cases hm : m.getLsbD b with
    | false => rw [h b hb hm]
    | true => simp

/-- Of two disjoint masks no bit is in both. -/
theorem getLsbD_of_disjoint {W : Nat} {m n : BitVec W} (h : m &&& n = 0) {b : Nat} (hm : m.getLsbD b = true) :
    n.getLsbD b = false := by
  have hbit : (m &&& n).getLsbD b = false := by rw [h]; exact BitVec.getLsbD_zero
  rwa [BitVec.getLsbD_and, hm, Bool.true_and] at hbit

section transform
variable {Wd Ws : Nat} {op : Op} {D D' M M1 M2 : BitVec Wd} {S S1 S2 : BitVec Ws} {sh sh1 sh2 : Int} {b : Nat}

/-- Outside the mask a bit is the destination's, inside it the table's (40_rmw.md R109). -/
theorem rmw_getLsbD (hb : b < Wd) :
    (rmw op D S M sh).getLsbD b =
      if M.getLsbD b then opBit op (D.getLsbD b) ((shiftSource (S.setWidth Wd) sh).getLsbD b) else D.getLsbD b :=
  combine_getLsbD op D _ M hb

theorem rmw_getLsbD_of_unmasked (hb : b < Wd) (hm : M.getLsbD b = false) :
    (rmw op D S M sh).getLsbD b = D.getLsbD b := by
  rw [rmw_getLsbD hb, hm, if_neg Bool.false_ne_true]

theorem rmw_getLsbD_of_masked (hb : b < Wd) (hm : M.getLsbD b = true) :
    (rmw op D S M sh).getLsbD b = opBit op (D.getLsbD b) ((shiftSource (S.setWidth Wd) sh).getLsbD b) := by
  rw [rmw_getLsbD hb, hm, if_pos rfl]

theorem rmw_and_not_mask : rmw op D S M sh &&& ~~~M = D &&& ~~~M :=
  and_not_eq_iff.2 fun _ => rmw_getLsbD_of_unmasked

theorem rmw_zero_mask : rmw op D S 0 sh = D :=
  BitVec.eq_of_getLsbD_eq fun _ hb => rmw_getLsbD_of_unmasked hb BitVec.getLsbD_zero

/-- Applied twice, XOR restores the destination and the others are idempotent (40_rmw.md R114). -/
theorem rmw_rmw_same : rmw op (rmw op D S M sh) S M sh = if op = .xor then D else rmw op D S M sh := by
  refine BitVec.eq_of_getLsbD_eq fun b hb => ?_
  rw [apply_ite (BitVec.getLsbD · b)]
  cases hm : M.getLsbD b with
  | false => simp only [rmw_getLsbD_of_unmasked hb hm, ite_self]
  | true => simp only [rmw_getLsbD_of_masked hb hm, opBit_opBit]

/-- COPY and INV replace the masked bits whatever they were (40_rmw.md R114). -/
theorem rmw_eq_of_agree_outside_mask (hop : op = .copy ∨ op = .inv)
    (h : D &&& ~~~M = D' &&& ~~~M) : rmw op D S M sh = rmw op D' S M sh := by
  refine BitVec.eq_of_getLsbD_eq fun b hb => ?_
  cases hm : M.getLsbD b with
  | false => rw [rmw_getLsbD_of_unmasked hb hm, rmw_getLsbD_of_unmasked hb hm, and_not_eq_iff.1 h b hb hm]
  | true => rw [rmw_getLsbD_of_masked hb hm, rmw_getLsbD_of_masked hb hm, opBit_eq_of_copy_or_inv hop]

/-- Of two transforms with disjoint masks each bit is decided by at most one (40_rmw.md R115). -/
theorem rmw_rmw_disjoint_getLsbD (hM : M1 &&& M2 = 0) (hb : b < Wd) :
    (rmw op (rmw op D S1 M1 sh1) S2 M2 sh2).getLsbD b =
      if M1.getLsbD b then (rmw op D S1 M1 sh1).getLsbD b
      else if M2.getLsbD b then (rmw op D S2 M2 sh2).getLsbD b
      else D.getLsbD b := by
  split_ifs with h1 h2
  · rw [rmw_getLsbD_of_unmasked hb (getLsbD_of_disjoint hM h1)]
  · rw [rmw_getLsbD_of_masked hb h2, rmw_getLsbD_of_masked hb h2,
      rmw_getLsbD_of_unmasked hb (Bool.eq_false_of_not_eq_true h1)]
  · rw [rmw_getLsbD_of_unmasked hb (Bool.eq_false_of_not_eq_true h2),
      rmw_getLsbD_of_unmasked hb (Bool.eq_false_of_not_eq_true h1)]

/-- Two transforms with disjoint masks commute: in either order each bit is decided by the same one. -/
theorem rmw_rmw_disjoint_comm (hM : M1 &&& M2 = 0) :
    rmw op (rmw op D S1 M1 sh1) S2 M2 sh2 = rmw op (rmw op D S2 M2 sh2) S1 M1 sh1 := by
  have hM' : M2 &&& M1 = 0 := by rw [BitVec.and_comm, hM]
  refine BitVec.eq_of_getLsbD_eq fun b hb => ?_
  rw [rmw_rmw_disjoint_getLsbD hM hb, rmw_rmw_disjoint_getLsbD hM' hb]
  split_ifs with h1 h2
  · exact absurd h2 (by rw [getLsbD_of_disjoint hM h1]; exact Bool.false_ne_true)
  all_goals rfl

end transform

/-- Settles O17: `rmw_getLsbD` with the table of 40_rmw.md R109 written out. -/
theorem rmwPerBit : Obligations.RmwPerBit := by
  unfold Obligations.RmwPerBit
  intro op Wd Ws D M S sh b hb
  rw [rmw_getLsbD hb]
  cases op <;> rfl

/-- Settles O19: both sentences hold bit by bit, by what the table does with its own result. -/
theorem rmwAppliedTwice : Obligations.RmwAppliedTwice :=
  fun _ _ _ _ _ _ _ => ⟨rmw_rmw_same, fun _ => rmw_eq_of_agree_outside_mask⟩

/-- Settles O20: the decision of each bit, and the commutation that follows from it. -/
theorem rmwDisjointMasksCommute : Obligations.RmwDisjointMasksCommute :=
  fun _ _ _ _ _ _ _ _ _ _ hM => ⟨rmw_rmw_disjoint_comm hM, fun _ => rmw_rmw_disjoint_getLsbD hM⟩

/-- Settles O21: no bit outside the mask is changed, and outside an empty mask lies every bit. -/
theorem rmwMaskLocality : Obligations.RmwMaskLocality := by
  unfold Obligations.RmwMaskLocality
  intro op Wd Ws D M S sh
  refine ⟨rmw_and_not_mask, ?_⟩
  rintro rfl
  exact rmw_zero_mask

/-! ### The RMW command (40_rmw.md R112) -/

/-- SHIFT read signed is its two's complement value (30_encoding.md R85 (a)). -/
theorem signedShift_eq_toInt (d : Descriptors) : signedShift d = d.shift.toInt := by
  rw [signedShift, BitVec.toInt_eq_toNat_cond]
  split_ifs <;> omega

/-- Settles O22: the width checks pass, and the command's result is the transform of the truncated operands. -/
theorem rmwCommandWritesRes : Obligations.RmwCommandWritesRes := by
  unfold Obligations.RmwCommandWritesRes
  intro op wd ws Wd Ws s hWd hWs hle
  have hchecks : narrowWidths wd ws = .ok (Wd, Ws) := narrowWidths_ok.2 ⟨hWd, hWs, hle⟩
  rw [exec_rmw, rmwCommand, hchecks, ← signedShift_eq_toInt]
  rfl

end Sys2Proof.Machine
end

section
/-! The net effect of the linear blit (41_blit1d.md R121 to R131): which bits a run covers, the invariant of its three
cases, element by element, and the statements about the BLIT1D command. -/

namespace Sys2Proof.Machine

/-! ### Where the bits of a row lie -/

section bits
variable (m : Memory) (base : Word) {W : Nat} (row : Nat)

/-- Bit b of element k of a row, by its number in the row. -/
theorem rowBit_element (k : Nat) {b : Nat} (hb : b < W) :
    rowBit m base W row (k * W + b) = (m.readElem (elemAddr base (row + k) W) W).getLsbD b := by
  rw [rowBit, Nat.mul_comm k, Nat.mul_add_div (by omega), Nat.div_eq_of_lt hb, Nat.add_zero, Nat.mul_add_mod,
    Nat.mod_eq_of_lt hb]

/-- A row counted from its element off div W: bit off of the row is then bit off mod W (41_blit1d.md R121). -/
theorem rowBit_startElement (hW : 0 < W) (off i : Nat) :
    rowBit m base W (row + off / W) (off % W + i) = rowBit m base W row (off + i) := by
  conv_rhs => rw [← Nat.div_add_mod off W, Nat.add_assoc]
  rw [rowBit, rowBit, Nat.mul_add_div hW, Nat.mul_add_mod, Nat.add_assoc]

/-- The same for where the bit lies, in elements of whole bytes. -/
theorem bitHome_startElement (hW : 0 < W) (h8 : 8 ∣ W) (off i : Nat) :
    bitHome base W (row + off / W) (off % W + i) = bitHome base W row (off + i) := by
  have hbit : (off % W + i) % 8 = (off + i) % 8 := by rw [Nat.add_mod, Nat.mod_mod_of_dvd _ h8, ← Nat.add_mod]
  have hdiv : off / W + (off % W + i) / W = (off + i) / W := by
    conv_rhs => rw [← Nat.div_add_mod off W, Nat.add_assoc, Nat.mul_add_div hW]
  rw [bitHome, bitHome, Nat.add_assoc, hdiv, hbit, Nat.mod_add_mod]

/-- A bit of a row is the bit of memory where it lies (20_memory.md R53). -/
theorem memBit_bitHome (hW : 0 < W) (h8 : 8 ∣ W) (i : Nat) :
    memBit m (bitHome base W row i).1 (bitHome base W row i).2 = rowBit m base W row i := by
  rw [rowBit, Memory.readElem_getLsbD m _ h8 (Nat.mod_lt _ hW), Nat.mod_mod_of_dvd _ h8]
  rfl

/-- Bit k of byte j of element e lies at that byte. -/
theorem bitHome_byte (h8 : 8 ∣ W) (e : Nat) {j k : Nat} (hj : j < W / 8) (hk : k < 8) :
    bitHome base W row (e * W + (8 * j + k)) = (byteAddr (elemAddr base (row + e) W) j, k) := by
  have hlt : 8 * j + k < W := by omega
  have hbit : (e * W + (8 * j + k)) % 8 = k := by
    rw [Nat.add_mod, (Nat.dvd_mul_left_of_dvd h8 e).modEq_zero_nat]
    omega
  rw [bitHome, hbit, Nat.mul_comm e, Nat.mul_add_div (by omega), Nat.div_eq_of_lt hlt, Nat.mul_add_mod,
    Nat.mod_eq_of_lt hlt, show (8 * j + k) / 8 = j by omega, Nat.add_zero]

end bits

/-- Element i holds a bit of the first n exactly when it is one of the first ceil(n / W). -/
theorem lt_ceilDiv {W : Nat} (hW : 0 < W) {i n : Nat} : i < ceilDiv n W ↔ i * W < n := by
  rw [ceilDiv, ← Nat.succ_le_iff, Nat.le_div_iff_mul_le hW, Nat.succ_mul]
  omega

theorem ceilDiv_of_mod_eq_zero {W n : Nat} (hW : 0 < W) (h : n % W = 0) : ceilDiv n W = n / W := by
  refine eq_of_forall_lt_iff fun i => ?_
  rw [lt_ceilDiv hW, Nat.lt_div_iff_mul_lt_of_dvd hW.ne' (Nat.dvd_of_mod_eq_zero h)]

theorem ceilDiv_of_mod_ne_zero {W n : Nat} (hW : 0 < W) (h : n % W ≠ 0) : ceilDiv n W = n / W + 1 := by
  refine eq_of_forall_lt_iff fun i => ?_
  have hne : i * W ≠ n := fun he => h (he ▸ Nat.mul_mod_left i W)
  rw [lt_ceilDiv hW, Nat.lt_succ_iff, Nat.le_div_iff_mul_le hW]
  omega

theorem ceilDiv_eq_pred_div {W n : Nat} (hW : 0 < W) (hn : 0 < n) : ceilDiv n W = (n - 1) / W + 1 := by
  rw [ceilDiv, show n + W - 1 = n - 1 + W by omega, Nat.add_div_right _ hW]

/-! ### A run of bits -/

/-- A run of n bits: from bit 0 of source element `se` to bit p, and on, of destination element `de`, in elements of
width W. -/
structure BitRun where
  W : Nat
  dst : Word
  src : Word
  de : Nat
  se : Nat
  p : Nat
  n : Nat

namespace BitRun

/-- The address of destination element j of a run. -/
abbrev dstAddr (r : BitRun) (j : Nat) : Word := elemAddr r.dst (r.de + j) r.W

/-- The address of source element i of a run. -/
abbrev srcAddr (r : BitRun) (i : Nat) : Word := elemAddr r.src (r.se + i) r.W

/-- One past the last destination element a run covers, counted from element `de`. -/
abbrev elements (r : BitRun) : Nat := ceilDiv (r.p + r.n) r.W

/-- The run counted from its first covered element: e0 = off div W, p = off mod W (41_blit1d.md R121). -/
def start (r : BitRun) : BitRun := { r with de := r.de + r.p / r.W, p := r.p % r.W }

/-- A run in elements of a defined width whose destination lies within 2^32 bytes of its base and has no byte in
common with the source (20_memory.md R67, 70_reset_and_hazards.md R244, R246). -/
structure Separate (r : BitRun) : Prop where
  width : r.W = 8 ∨ r.W = 16 ∨ r.W = 32
  fits : (r.de + r.elements) * (r.W / 8) ≤ 2 ^ 32
  apart : ∀ i < ceilDiv r.n r.W, ∀ e < r.elements, r.p / r.W ≤ e →
    Machine.apart (r.srcAddr i) (r.W / 8) (r.dstAddr e) (r.W / 8)

/-- The net effect of a run on memory (41_blit1d.md R131). -/
structure Effect (r : BitRun) (op : Op) (m m' : Memory) : Prop where
  run : ∀ i < r.n, rowBit m' r.dst r.W r.de (r.p + i) =
    opBit op (rowBit m r.dst r.W r.de (r.p + i)) (rowBit m r.src r.W r.se i)
  rest : ∀ (a : Word) (k : Nat), k < 8 → (∀ i < r.n, bitHome r.dst r.W r.de (r.p + i) ≠ (a, k)) →
    memBit m' a k = memBit m a k

section separate
variable {r : BitRun}

theorem Separate.pos (h : r.Separate) : 0 < r.W := by
  have := h.width
  omega

theorem Separate.dvd (h : r.Separate) : 8 ∣ r.W := by
  have := h.width
  omega

theorem Separate.le (h : r.Separate) : r.W ≤ 32 := by
  have := h.width
  omega

/-- Two destination elements of a run have no byte in common. -/
theorem Separate.dst_apart (h : r.Separate) {j k : Nat} (hj : j < r.elements) (hk : k < r.elements) (hne : j ≠ k) :
    Machine.apart (r.dstAddr j) (r.W / 8) (r.dstAddr k) (r.W / 8) :=
  elements_apart r.dst ((Nat.mul_le_mul_right _ (by omega)).trans h.fits)
    ((Nat.mul_le_mul_right _ (by omega)).trans h.fits) (by omega)

/-- Counted from its first element a run covers that much fewer elements. -/
theorem start_elements (hW : 0 < r.W) : r.p / r.W + r.start.elements = r.elements := by
  have hsplit := Nat.div_add_mod r.p r.W
  have hsum : r.p + r.n + r.W - 1 = r.W * (r.p / r.W) + (r.p % r.W + r.n + r.W - 1) := by omega
  simp only [elements, start, ceilDiv]
  rw [hsum, Nat.mul_add_div hW]

theorem Separate.start (h : r.Separate) : r.start.Separate where
  width := h.width
  fits := by
    have hfits := h.fits
    rw [← start_elements h.pos, ← Nat.add_assoc] at hfits
    exact hfits
  apart i hi e he _ := by
    have he' : r.p / r.W + e < r.elements := by
      rw [← start_elements h.pos]
      omega
    have := h.apart i hi _ he' (by omega)
    rwa [BitRun.dstAddr, ← Nat.add_assoc] at this

/-- The effect does not depend on where the run is counted from. -/
theorem Effect.of_start {op : Op} {m m' : Memory} (hW : 0 < r.W) (h8 : 8 ∣ r.W) (h : r.start.Effect op m m') :
    r.Effect op m m' where
  run i hi := by
    have := h.run i hi
    simpa only [BitRun.start, rowBit_startElement _ _ _ hW] using this
  rest a k hk ha := h.rest a k hk fun i hi => by
    simpa only [BitRun.start, bitHome_startElement _ _ hW h8] using ha i hi

end separate

/-! ### The run, element by element -/

/-- Bit q of the destination, counted from element `de`, after the run (41_blit1d.md R131). -/
def bitAfter (r : BitRun) (op : Op) (m : Memory) (q : Nat) : Bool :=
  if r.p ≤ q ∧ q < r.p + r.n then opBit op (rowBit m r.dst r.W r.de q) (rowBit m r.src r.W r.se (q - r.p))
  else rowBit m r.dst r.W r.de q

/-- The invariant of every case: the first k destination elements hold what the run leaves in them, every byte outside
them is as before. -/
structure Written (r : BitRun) (op : Op) (m : Memory) (k : Nat) (m' : Memory) : Prop where
  bits : ∀ q < k * r.W, rowBit m' r.dst r.W r.de q = r.bitAfter op m q
  rest : ∀ a : Word, (∀ j < k, ∀ l < r.W / 8, byteAddr (r.dstAddr j) l ≠ a) → m'.read a.toNat = m.read a.toNat

section written
variable {r : BitRun} {op : Op} {m m' : Memory} {k : Nat}

theorem Written.zero (r : BitRun) (op : Op) (m : Memory) : r.Written op m 0 m where
  bits q hq := by omega
  rest _ _ := rfl

/-- A destination element not yet written still holds what it did. -/
theorem Written.readElem_dst (h : r.Written op m k m') (hr : r.Separate) {j : Nat} (hj : j < r.elements) (hk : k ≤ j) :
    m'.readElem (r.dstAddr j) r.W = m.readElem (r.dstAddr j) r.W :=
  Memory.readElem_congr fun l hl => h.rest _ fun i hi l' hl' =>
    hr.dst_apart (by omega) hj (by omega) l' hl' l hl

/-- A source element still holds what it did. -/
theorem Written.readElem_src (h : r.Written op m k m') (hr : r.Separate) (hp : r.p < r.W) (hk : k ≤ r.elements)
    {i : Nat} (hi : i < ceilDiv r.n r.W) : m'.readElem (r.srcAddr i) r.W = m.readElem (r.srcAddr i) r.W :=
  Memory.readElem_congr fun l hl => h.rest _ fun e he l' hl' =>
    (hr.apart i hi e (by omega) (by simp [Nat.div_eq_of_lt hp]) l hl l' hl').symm

/-- The next destination element written with the bits the run leaves in it. -/
theorem Written.write (h : r.Written op m k m') (hr : r.Separate) (hk : k < r.elements) {v : BitVec r.W}
    (hv : ∀ b < r.W, v.getLsbD b = r.bitAfter op m (k * r.W + b)) :
    r.Written op m (k + 1) (m'.writeElem (r.dstAddr k) v) where
  bits q hq := by
    have hdm := Nat.div_add_mod' q r.W
    have hb := Nat.mod_lt q hr.pos
    have hle := hr.le
    have hj : q / r.W < k + 1 := (Nat.div_lt_iff_lt_mul hr.pos).2 hq
    rw [← hdm]
    by_cases hjk : q / r.W = k
    · rw [hjk, rowBit_element _ _ _ _ hb, Memory.readElem_writeElem_same _ _ _ hr.dvd (by omega), hv _ hb]
    · rw [rowBit_element _ _ _ _ hb,
        Memory.readElem_writeElem_apart _ _ _ _ (hr.dst_apart (by omega) hk hjk), ← rowBit_element _ _ _ _ hb]
      refine h.bits _ ?_
      rw [hdm]
      exact (Nat.div_lt_iff_lt_mul hr.pos).1 (by omega)
  rest a ha := by
    rw [Memory.read_writeElem_other _ _ _ _ fun l hl he => ha k (by omega) l hl (BitVec.eq_of_toNat_eq he)]
    exact h.rest a fun j hj => ha j (by omega)

/-- A run whose elements are all written has had its effect. -/
theorem Written.effect (h : r.Written op m r.elements m') (hr : r.Separate) : r.Effect op m m' where
  run i hi := by
    have hW := hr.pos
    have hlast : r.p + i < r.elements * r.W := by
      have := (lt_ceilDiv hW (i := r.elements) (n := r.p + r.n)).not.1 (lt_irrefl _)
      omega
    rw [h.bits _ hlast, bitAfter, if_pos (by omega), Nat.add_sub_cancel_left]
  rest a k hk ha := by
    by_cases hw : ∀ j < r.elements, ∀ l < r.W / 8, byteAddr (r.dstAddr j) l ≠ a
    · rw [memBit, h.rest a hw, memBit]
    · push Not at hw
      obtain ⟨j, hj, l, hl, rfl⟩ := hw
      have hhome := bitHome_byte r.dst r.de hr.dvd j hl hk
      have hlt : j * r.W + (8 * l + k) < r.elements * r.W := by
        have := Nat.mul_le_mul_right r.W (Nat.succ_le_of_lt hj)
        rw [Nat.succ_mul] at this
        omega
      have hout : ¬ (r.p ≤ j * r.W + (8 * l + k) ∧ j * r.W + (8 * l + k) < r.p + r.n) := fun hin =>
        ha (j * r.W + (8 * l + k) - r.p) (by omega) (by rwa [Nat.add_sub_cancel' hin.1])
      have hbits := h.bits _ hlt
      rw [bitAfter, if_neg hout, ← memBit_bitHome m' _ _ hr.pos hr.dvd, ← memBit_bitHome m _ _ hr.pos hr.dvd,
        hhome] at hbits
      exact hbits

end written

/-! ### What each transform leaves in an element (41_blit1d.md R125 to R129) -/

/-- A transform of destination element k, with mask M, source S and shift sh, sets only bits of the run, each from its
own source bit. -/
structure Feeds (r : BitRun) (m : Memory) (k : Nat) (M S : BitVec r.W) (sh : Int) : Prop where
  inRun : ∀ b < r.W, M.getLsbD b = true → r.p ≤ k * r.W + b ∧ k * r.W + b < r.p + r.n
  source : ∀ b < r.W, M.getLsbD b = true →
    (shiftSource S sh).getLsbD b = rowBit m r.src r.W r.se (k * r.W + b - r.p)

section values
variable {r : BitRun} {op : Op} {m : Memory} {k : Nat} {M S : BitVec r.W} {sh : Int}

/-- One transform whose mask holds every bit of the run in element k leaves what the run leaves there. -/
theorem Feeds.rmw_bitAfter (h : r.Feeds m k M S sh)
    (hall : ∀ b < r.W, r.p ≤ k * r.W + b → k * r.W + b < r.p + r.n → M.getLsbD b = true) {b : Nat} (hb : b < r.W) :
    (rmw op (m.readElem (r.dstAddr k) r.W) S M sh).getLsbD b = r.bitAfter op m (k * r.W + b) := by
  rw [bitAfter, rowBit_element _ _ _ _ hb]
  cases hM : M.getLsbD b with
  | true =>
    rw [rmw_getLsbD_of_masked hb hM, if_pos (h.inRun b hb hM), BitVec.setWidth_eq, h.source b hb hM]
  | false =>
    rw [rmw_getLsbD_of_unmasked hb hM, if_neg fun hin => ?_]
    rw [hall b hb hin.1 hin.2] at hM
    exact Bool.noConfusion hM

/-- Two transforms with disjoint masks that together hold every bit of the run in element k. -/
theorem Feeds.rmw_rmw_bitAfter {M' S' : BitVec r.W} {sh' : Int} (h : r.Feeds m k M S sh) (h' : r.Feeds m k M' S' sh')
    (hdisj : M &&& M' = 0)
    (hall : ∀ b < r.W, r.p ≤ k * r.W + b → k * r.W + b < r.p + r.n → M.getLsbD b = true ∨ M'.getLsbD b = true)
    {b : Nat} (hb : b < r.W) :
    (rmw op (rmw op (m.readElem (r.dstAddr k) r.W) S M sh) S' M' sh').getLsbD b = r.bitAfter op m (k * r.W + b) := by
  rw [rmw_rmw_disjoint_getLsbD hdisj hb, bitAfter, rowBit_element _ _ _ _ hb]
  split_ifs with hM hin hM' hin' hin'
  · rw [rmw_getLsbD_of_masked hb hM, BitVec.setWidth_eq, h.source b hb hM]
  · exact absurd (h.inRun b hb hM) hin
  · rw [rmw_getLsbD_of_masked hb hM', BitVec.setWidth_eq, h'.source b hb hM']
  · exact absurd (h'.inRun b hb hM') hin'
  · rcases hall b hb hin'.1 hin'.2 with h | h
    · exact absurd h hM
    · exact absurd h hM'
  · rfl

/-- Source element k, shifted left by p, lines up with destination element k (41_blit1d.md R127, R128). -/
theorem feeds_high (hM : ∀ b < r.W, M.getLsbD b = true → r.p ≤ b ∧ k * r.W + b < r.p + r.n) :
    r.Feeds m k M (m.readElem (r.srcAddr k) r.W) (r.p : Int) where
  inRun b hb h := by
    have := hM b hb h
    omega
  source b hb h := by
    have hp := (hM b hb h).1
    have hbit : b - r.p < r.W := by omega
    rw [shiftSource_natCast, BitVec.getLsbD_shiftLeft, Nat.add_sub_assoc hp, rowBit_element _ _ _ _ hbit]
    simp [hb, hp]

/-- Source element j, shifted right by W - p, lines up with the first p bits of destination element j + 1
(41_blit1d.md R128). -/
theorem feeds_low {j : Nat} (hpW : r.p < r.W)
    (hM : ∀ b < r.W, M.getLsbD b = true → b < r.p ∧ (j + 1) * r.W + b < r.p + r.n) :
    r.Feeds m (j + 1) M (m.readElem (r.srcAddr j) r.W) (-((r.W : Int) - (r.p : Int))) where
  inRun b hb h := by
    have := hM b hb h
    rw [Nat.succ_mul] at this ⊢
    omega
  source b hb h := by
    obtain ⟨hlow, -⟩ := hM b hb h
    have hbit : r.W - r.p + b < r.W := by omega
    have hq : (j + 1) * r.W + b - r.p = j * r.W + (r.W - r.p + b) := by
      rw [Nat.succ_mul]
      omega
    rw [← Int.ofNat_sub hpW.le, shiftSource_neg_natCast, BitVec.getLsbD_ushiftRight, hq, rowBit_element _ _ _ _ hbit]

end values

/-- The bulk copy of a whole element is the full-mask transform of COPY (41_blit1d.md R126). -/
theorem rmw_copy_allOnes {W : Nat} (D S : BitVec W) : rmw .copy D S (BitVec.allOnes W) 0 = S := by
  refine BitVec.eq_of_getLsbD_eq fun b hb => ?_
  have hM : (BitVec.allOnes W).getLsbD b = true := by simp [hb]
  rw [rmw_getLsbD_of_masked hb hM, BitVec.setWidth_eq, show (0 : Int) = ((0 : Nat) : Int) from rfl,
    shiftSource_natCast, BitVec.shiftLeft_zero]
  rfl

/-- The mask of n bits from bit p on (41_blit1d.md R125). -/
theorem shifted_ones_getLsbD {W n p b : Nat} (hb : b < W) :
    (ones W n <<< p).getLsbD b = true ↔ p ≤ b ∧ b < p + n := by
  rw [BitVec.getLsbD_shiftLeft, ones_getLsbD]
  simp only [Bool.and_eq_true, decide_eq_true_eq, Bool.not_eq_true', decide_eq_false_iff_not]
  omega

/-- The mask of every bit from p on (41_blit1d.md R127). -/
theorem shifted_allOnes_getLsbD {W p b : Nat} (hb : b < W) :
    (BitVec.allOnes W <<< p).getLsbD b = true ↔ p ≤ b := by
  rw [BitVec.getLsbD_shiftLeft, BitVec.getLsbD_allOnes]
  simp only [Bool.and_eq_true, decide_eq_true_eq, Bool.not_eq_true', decide_eq_false_iff_not]
  omega

/-- The mask of the low part of a later element. -/
theorem lowMask_getLsbD {W p top b : Nat} (hb : b < W) :
    (ones W (min p top)).getLsbD b = true ↔ b < p ∧ b < top := by
  rw [ones_getLsbD]
  simp only [hb, decide_true, Bool.true_and, decide_eq_true_eq, lt_min_iff]

/-- The mask of the high part of a later element. -/
theorem highMask_getLsbD {W p top b : Nat} (hb : b < W) :
    (ones W top &&& ~~~(ones W p)).getLsbD b = true ↔ p ≤ b ∧ b < top := by
  rw [getLsbD_and_not _ _ hb, ones_getLsbD, ones_getLsbD]
  simp only [hb, decide_true, Bool.true_and, Bool.and_eq_true, decide_eq_true_eq, Bool.not_eq_true',
    decide_eq_false_iff_not, Nat.not_lt, and_comm]

/-- Low part and high part have no bit in common. -/
theorem lowMask_and_highMask (W p top : Nat) : ones W (min p top) &&& (ones W top &&& ~~~(ones W p)) = 0#W := by
  refine BitVec.eq_of_getLsbD_eq fun b hb => ?_
  rw [BitVec.getLsbD_and, BitVec.getLsbD_zero, ← Bool.not_eq_true, Bool.and_eq_true, lowMask_getLsbD hb,
    highMask_getLsbD hb]
  omega

/-! ### The element steps write one more element -/

section steps
variable {r : BitRun} {op : Op} {m : Memory} {k : Nat} {b : Bus}

/-- One read-modify-write with the bits of source element k, all that the run has in element k. -/
theorem Written.rmwElem (h : r.Written op m k b.mem) (hr : r.Separate) (hp : r.p < r.W) (hk : k < r.elements)
    (hs : k < ceilDiv r.n r.W) {M : BitVec r.W}
    (hM : ∀ i < r.W, M.getLsbD i = true ↔ r.p ≤ i ∧ k * r.W + i < r.p + r.n)
    (hfirst : k = 0 ∨ r.p = 0) :
    r.Written op m (k + 1) (rmwElem op r.W r.dst r.src (r.de + k) (r.se + k) M (r.p : Int) b).mem := by
  rw [rmwElem_mem, h.readElem_dst hr hk le_rfl, h.readElem_src hr hp hk.le hs]
  refine h.write hr hk fun i => (feeds_high fun i hi => (hM i hi).1).rmw_bitAfter fun i hi hge hlt => ?_
  refine (hM i hi).2 ⟨?_, hlt⟩
  rcases hfirst with rfl | h0
  · rwa [Nat.zero_mul, Nat.zero_add] at hge
  · omega

/-- A covered element of the aligned path, bulk copy or not, as one transform with the full mask. -/
theorem alignedElem_mem (op : Op) (W : Nat) (dst src : Word) (de se : Nat) (b : Bus) :
    (alignedElem op W dst src de se b).mem = (Machine.rmwElem op W dst src de se (BitVec.allOnes W) 0 b).mem := by
  rw [alignedElem_eq]
  split_ifs with hop
  · rw [hop, copyElem_mem, rmwElem_mem, rmw_copy_allOnes]
  · rfl

/-- A later element of the unaligned path, covered in its first `top` bits (41_blit1d.md R128, R129). -/
theorem Written.laterElem {st : BitVec r.W × Bus} (h : r.Written op m (k + 1) st.2.mem) (hr : r.Separate)
    (hp : r.p < r.W) (hk : k + 1 < r.elements) (hheld : st.1 = m.readElem (r.srcAddr k) r.W) {top : Nat}
    (htop : ∀ i < r.W, i < top ↔ (k + 1) * r.W + i < r.p + r.n)
    (hreach : r.p < top → k + 1 < ceilDiv r.n r.W) :
    r.Written op m (k + 1 + 1)
      (laterElem op r.W r.dst r.src (r.de + (k + 1)) (r.se + (k + 1)) r.p top st).2.mem := by
  have hlow : r.Feeds m (k + 1) (ones r.W (min r.p top)) (m.readElem (r.srcAddr k) r.W) _ :=
    feeds_low hp fun i hi hM => (lowMask_getLsbD hi).1 hM |>.imp_right (htop i hi).1
  by_cases hhigh : r.p < top
  · have hhi : r.Feeds m (k + 1) (ones r.W top &&& ~~~(ones r.W r.p)) (m.readElem (r.srcAddr (k + 1)) r.W) _ :=
      feeds_high fun i hi hM => (highMask_getLsbD hi).1 hM |>.imp_right (htop i hi).1
    rw [laterElem_high _ _ _ _ _ _ hhigh, dstWrite_mem, srcRead_mem, dstRead_mem, h.readElem_dst hr hk le_rfl,
      h.readElem_src hr hp hk.le (hreach hhigh), hheld]
    refine h.write hr hk fun i => hlow.rmw_rmw_bitAfter hhi (lowMask_and_highMask _ _ _) fun i hi _ hin => ?_
    rw [lowMask_getLsbD hi, highMask_getLsbD hi]
    have := (htop i hi).2 hin
    omega
  · rw [laterElem_low _ _ _ _ _ _ hhigh, dstWrite_mem, dstRead_mem, h.readElem_dst hr hk le_rfl, hheld]
    refine h.write hr hk fun i => hlow.rmw_bitAfter fun i hi _ hin => ?_
    rw [lowMask_getLsbD hi]
    have := (htop i hi).2 hin
    omega

end steps

/-! ### The three cases (41_blit1d.md R124) -/

/-- Bit i of later element k + 1 is covered exactly when the run reaches it (41_blit1d.md R129). -/
theorem laterElem_covers {W p n k i : Nat} (hk : k < (p + n - 1) / W) (hi : i < W) :
    (i < if k + 1 = (p + n - 1) / W then p + n - (p + n - 1) / W * W else W) ↔ (k + 1) * W + i < p + n := by
  have hend : (p + n - 1) / W * W ≤ p + n - 1 := Nat.div_mul_le_self _ _
  split
  · rename_i h
    rw [h]
    omega
  · rename_i h
    have : (k + 1 + 1) * W ≤ (p + n - 1) / W * W := Nat.mul_le_mul_right _ (by omega)
    rw [Nat.succ_mul] at this
    omega

section cases
variable {r : BitRun} {op : Op} (b : Bus)

/-- The sub-element case (41_blit1d.md R125). -/
theorem written_subElement (hr : r.Separate) (hp : r.p < r.W) (hn : r.n ≠ 0) (hs : r.p + r.n ≤ r.W) :
    r.Written op b.mem r.elements
      (rmwElem op r.W r.dst r.src r.de r.se (ones r.W r.n <<< r.p) (r.p : Int) b).mem := by
  have hone : r.elements = 1 := by
    have h0 := lt_ceilDiv hr.pos (i := 0) (n := r.p + r.n)
    have h1 := lt_ceilDiv hr.pos (i := 1) (n := r.p + r.n)
    simp only [elements]
    omega
  have hsrc : 0 < ceilDiv r.n r.W := (lt_ceilDiv hr.pos).2 (by omega)
  have h := (Written.zero r op b.mem).rmwElem (b := b) hr hp (by omega) hsrc (M := ones r.W r.n <<< r.p)
    (fun i hi => by rw [shifted_ones_getLsbD hi, Nat.zero_mul, Nat.zero_add]) (.inl rfl)
  rw [hone]
  exact h

/-- Every source element meets a destination element in the aligned case. -/
theorem ceilDiv_eq_elements (hp : r.p = 0) : ceilDiv r.n r.W = r.elements := by
  rw [elements, hp, Nat.zero_add]

/-- The elements that the aligned case covers in full (41_blit1d.md R126). -/
theorem written_alignedBulk (hr : r.Separate) (hp : r.p = 0) :
    r.Written op b.mem (r.n / r.W)
      (iterate (fun k => alignedElem op r.W r.dst r.src (r.de + k) (r.se + k)) (r.n / r.W) b).mem := by
  have hW := hr.pos
  have hcount := ceilDiv_eq_elements hp
  refine iterate_induct (fun k (x : Bus) => r.Written op b.mem k x.mem) _ (Written.zero r op b.mem) fun k hk x h => ?_
  have hcovered : (k + 1) * r.W ≤ r.n := (Nat.le_div_iff_mul_le hW).1 hk
  rw [Nat.succ_mul] at hcovered
  have hsrc : k < ceilDiv r.n r.W := (lt_ceilDiv hW).2 (by omega)
  have hstep := h.rmwElem hr (by omega) (by omega) hsrc (M := BitVec.allOnes r.W)
    (fun i hi => by simp only [BitVec.getLsbD_allOnes, decide_eq_true_eq]; omega) (.inr hp)
  rw [alignedElem_mem]
  simpa only [hp, Nat.cast_zero] using hstep

/-- The aligned case (41_blit1d.md R126): the bulk, and the tail if there is one. -/
theorem written_alignedPath (hr : r.Separate) (hp : r.p = 0) :
    r.Written op b.mem r.elements (alignedPath op r.W r.dst r.src r.de r.se r.n b).mem := by
  have hW := hr.pos
  have hsplit := Nat.div_add_mod' r.n r.W
  have hcount := ceilDiv_eq_elements hp
  have hbulk := written_alignedBulk (op := op) b hr hp
  unfold alignedPath
  dsimp only
  split_ifs with htail
  · rwa [← hcount, ceilDiv_of_mod_eq_zero hW htail]
  · have hend : r.elements = r.n / r.W + 1 := by rw [← hcount, ceilDiv_of_mod_ne_zero hW htail]
    have hstep := hbulk.rmwElem hr (by omega) (by omega) (by omega) (M := ones r.W (r.n % r.W))
      (fun i hi => by rw [ones_getLsbD]; simp only [hi, decide_true, Bool.true_and, decide_eq_true_eq]; omega)
      (.inr hp)
    rw [hend]
    simpa only [hp, Nat.cast_zero] using hstep

/-- The invariant of the unaligned case after element k: source element k is in the holding register, unless the run is
over (41_blit1d.md R127 to R129). -/
structure Holding (r : BitRun) (op : Op) (m : Memory) (k : Nat) (st : BitVec r.W × Bus) : Prop where
  written : r.Written op m (k + 1) st.2.mem
  held : k < (r.p + r.n - 1) / r.W → st.1 = m.readElem (r.srcAddr k) r.W

theorem holding_firstElem (hr : r.Separate) (hpW : r.p < r.W) (hs : ¬ r.p + r.n ≤ r.W) :
    r.Holding op b.mem 0 (firstElem op r.W r.dst r.src r.de r.se r.p b) where
  written :=
    (Written.zero r op b.mem).rmwElem hr hpW ((lt_ceilDiv hr.pos).2 (by omega)) ((lt_ceilDiv hr.pos).2 (by omega))
      (fun i hi => by rw [shifted_allOnes_getLsbD hi]; omega) (.inl rfl)
  held _ := rfl

/-- The unaligned case (41_blit1d.md R127 to R129). -/
theorem written_unalignedPath (hr : r.Separate) (hpW : r.p < r.W) (hs : ¬ r.p + r.n ≤ r.W) :
    r.Written op b.mem r.elements (unalignedPath op r.W r.dst r.src r.de r.se r.p r.n b).mem := by
  have hW := hr.pos
  have hend : r.elements = (r.p + r.n - 1) / r.W + 1 := ceilDiv_eq_pred_div hW (by omega)
  rw [hend]
  refine (iterate_induct (r.Holding op b.mem) _ (holding_firstElem b hr hpW hs) fun k hk st h => ?_).written
  have hreach := laterElem_reaches (n := r.n) hpW hk
  refine ⟨h.written.laterElem hr hpW (by omega) (h.held hk) (fun i hi => laterElem_covers hk hi)
    fun ht => (lt_ceilDiv hW).2 (hreach.1 ht), fun hmore => ?_⟩
  rw [if_neg (by omega)] at hreach ⊢
  rw [laterElem_high _ _ _ _ _ _ hpW]
  exact h.written.readElem_src hr hpW (by omega) ((lt_ceilDiv hW).2 (hreach.1 hpW))

end cases
/-- Blit1D has the effect of its clipped run, in every case (41_blit1d.md R124, R131). -/
theorem blit1d_effect {r : BitRun} (hr : r.Separate) {cap len : Nat} (hn : clip1d cap r.p len r.W = r.n) (op : Op)
    (b : Bus) : r.Effect op b.mem (blit1d op r.W r.dst r.src r.de cap r.p r.se len b).mem := by
  have hpW : r.start.p < r.start.W := Nat.mod_lt _ hr.pos
  by_cases h0 : r.n = 0
  · rw [blit1d_empty (hn.trans h0)]
    exact ⟨fun i hi => by omega, fun _ _ _ _ => rfl⟩
  have hclip : clip1d cap r.p len r.W ≠ 0 := hn ▸ h0
  refine Effect.of_start hr.pos hr.dvd (Written.effect ?_ hr.start)
  by_cases hs : r.p % r.W + r.n ≤ r.W
  · rw [blit1d_subElement hclip (hn.symm ▸ hs), hn]
    exact written_subElement b hr.start hpW h0 hs
  by_cases hp : r.p % r.W = 0
  · rw [blit1d_aligned hclip (hn.symm ▸ hs) hp, hn]
    exact written_alignedPath b hr.start hp
  · rw [blit1d_unaligned hclip (hn.symm ▸ hs) hp, hn]
    exact written_unalignedPath b hr.start hpW hs

/-! ### A run repeated -/

section twice
variable {r : BitRun} {op : Op} {m m₁ m₂ : Memory}

/-- The source of a run separate from its destination is as before. -/
theorem Effect.source_kept (h : r.Effect op m m₁) (hr : r.Separate) {i : Nat} (hi : i < r.n) :
    rowBit m₁ r.src r.W r.se i = rowBit m r.src r.W r.se i := by
  have hW := hr.pos
  have hsrc : i / r.W < ceilDiv r.n r.W := (lt_ceilDiv hW).2 ((Nat.div_mul_le_self _ _).trans_lt hi)
  rw [← memBit_bitHome m₁ _ _ hW hr.dvd, ← memBit_bitHome m _ _ hW hr.dvd]
  refine h.rest _ _ (Nat.mod_lt _ (by omega)) fun j hj he => ?_
  have hdst : (r.p + j) / r.W < r.elements := (lt_ceilDiv hW).2 ((Nat.div_mul_le_self _ _).trans_lt (by omega))
  have hbyte : ∀ q, q % r.W / 8 < r.W / 8 := fun q => Nat.div_lt_div_of_lt_of_dvd hr.dvd (Nat.mod_lt q hW)
  exact hr.apart _ hsrc _ hdst (Nat.div_le_div_right (Nat.le_add_right _ _)) _ (hbyte i) _ (hbyte (r.p + j))
    (congrArg Prod.fst he).symm

/-- The same run again: XOR restores every bit, the other operations change nothing more (41_blit1d.md R137). -/
theorem Effect.memBit_twice (h₁ : r.Effect op m m₁) (h₂ : r.Effect op m₁ m₂) (hr : r.Separate) (a : Word) {k : Nat}
    (hk : k < 8) : memBit m₂ a k = if op = .xor then memBit m a k else memBit m₁ a k := by
  by_cases hin : ∃ i < r.n, bitHome r.dst r.W r.de (r.p + i) = (a, k)
  · obtain ⟨i, hi, hhome⟩ := hin
    have hbit : ∀ m : Memory, memBit m a k = rowBit m r.dst r.W r.de (r.p + i) := fun m => by
      rw [← memBit_bitHome m _ _ hr.pos hr.dvd, hhome]
    rw [hbit, hbit, hbit, h₂.run i hi, h₁.run i hi, h₁.source_kept hr hi, opBit_opBit]
  · push Not at hin
    rw [h₂.rest a k hk hin, h₁.rest a k hk hin, ite_self]

/-- The same for a whole byte. -/
theorem Effect.read_twice (h₁ : r.Effect op m m₁) (h₂ : r.Effect op m₁ m₂) (hr : r.Separate) (a : Word) :
    m₂.read a.toNat = if op = .xor then m.read a.toNat else m₁.read a.toNat := by
  refine BitVec.eq_of_getLsbD_eq fun k hk => ?_
  rw [apply_ite (BitVec.getLsbD · k)]
  exact h₁.memBit_twice h₂ hr a hk

end twice

end BitRun

/-! ### The BLIT1D command (41_blit1d.md R120, R135) -/

/-- A command on memory whose listed accesses complete answers the state it leaves. -/
theorem State.finish_of_allComplete {s : State} {run : Bus → Bus} {l : List BusAccess}
    (hl : (run ⟨s.mem, []⟩).shapes = l) (h : allComplete s.holes l) :
    s.finish run = .next { s with
      mem := (run ⟨s.mem, []⟩).mem, trace := s.trace ++ (run ⟨s.mem, []⟩).log } := by
  refine State.finish_next.2 ⟨fun x hx => ?_, rfl⟩
  rw [← completes_shape]
  exact h _ (hl ▸ List.mem_map_of_mem hx)

/-- What blitReady says is what the checks of BLIT1D ask. -/
theorem blit1dChecks_of_blitReady {d : Descriptors} {wd ws : WidthCode} {W : Nat} (h : blitReady d wd ws W) :
    blit1dChecks d wd ws = .ok W := by
  obtain ⟨hwd, hws, hdst, hsrc, hcap⟩ := h
  exact blit1dChecks_ok.2 ⟨sameWidth_ok.2 ⟨hwd, hws⟩, misalignedBases_eq_false.2 ⟨hdst, hsrc⟩, hcap⟩

/-- The run of an accepted BLIT1D command. -/
def blit1dBits (d : Descriptors) (W : Nat) : BitRun :=
  { W := W, dst := d.dstBase, src := d.srcBase, de := 0, se := 0, p := d.dstX.toNat, n := runLength d W }

/-- A clipped run is no longer than the length asked for in a register. -/
theorem runLength_lt (d : Descriptors) (W : Nat) : runLength d W < 2 ^ 32 := by
  by_cases h : runLength d W = 0
  · omega
  · exact (clip1d_pos h).2.2.1.trans_lt d.srcW.isLt

/-- Offset and length of 32 bits count bits, so the destination of a BLIT1D run never wraps around: non-overlap alone
separates it from the source. -/
theorem blit1dBits_separate {d : Descriptors} {W : Nat} (hW : W = 8 ∨ W = 16 ∨ W = 32) (h : blit1dApart d W) :
    (blit1dBits d W).Separate where
  width := hW
  fits := by
    have hoff := d.dstX.isLt
    have hn := runLength_lt d W
    simp only [BitRun.elements, blit1dBits, ceilDiv]
    rcases hW with rfl | rfl | rfl <;> omega
  apart i hi e he hge := by
    simpa only [BitRun.srcAddr, BitRun.dstAddr, blit1dBits, Nat.zero_add] using h i hi e he hge

/-- The net effect of an accepted BLIT1D on memory (41_blit1d.md R131). -/
theorem blit1dRun_effect {d : Descriptors} {W : Nat} (hW : W = 8 ∨ W = 16 ∨ W = 32) (h : blit1dApart d W) (op : Op)
    (b : Bus) : (blit1dBits d W).Effect op b.mem (blit1dRun op W d b).mem :=
  BitRun.blit1d_effect (r := blit1dBits d W) (blit1dBits_separate hW h) rfl op b

/-- An accepted BLIT1D whose listed accesses complete answers the state its run leaves. -/
theorem exec_blit1d_accepted {op : Op} {wd ws : WidthCode} {W : Nat} {s : State} (hready : blitReady s.desc wd ws W)
    (hcomplete : allComplete s.holes (blit1dAccesses op W s.desc)) :
    exec (.blit1d op wd ws) s = .next { s with
      mem := (blit1dRun op W s.desc ⟨s.mem, []⟩).mem
      trace := s.trace ++ (blit1dRun op W s.desc ⟨s.mem, []⟩).log } := by
  rw [exec_blit1d, blit1dCommand, blit1dChecks_of_blitReady hready]
  refine State.finish_of_allComplete ?_ hcomplete
  rw [blit1dRun_shapes op _ _ (widthBits_pos hready.1), Bus.shapes_nil, List.nil_append]

/-- Settles O23: the effect of the clipped run, whose bits are counted from the destination base. -/
theorem blit1dNetEffect : Obligations.Blit1dNetEffect := by
  unfold Obligations.Blit1dNetEffect
  intro op wd ws W s hready hapart hcomplete
  obtain ⟨hrun, hrest⟩ := blit1dRun_effect (widthBits_cases hready.1) hapart op ⟨s.mem, []⟩
  exact ⟨_, exec_blit1d_accepted hready hcomplete, rfl, hrun, hrest⟩

/-- Settles O24: the record of the run, which does not depend on what memory holds. -/
theorem blit1dMakesListedAccesses : Obligations.Blit1dMakesListedAccesses := by
  unfold Obligations.Blit1dMakesListedAccesses
  intro op wd ws W s hready hcomplete
  refine ⟨_, _, exec_blit1d_accepted hready hcomplete, rfl, ?_⟩
  exact (blit1dRun_shapes op s.desc ⟨s.mem, []⟩ (widthBits_pos hready.1)).trans (List.nil_append _)

/-- Either cause of an empty run (41_blit1d.md R123). -/
theorem runLength_eq_zero {d : Descriptors} {W : Nat} (h : d.srcW = 0 ∨ d.dstCap.toNat ≤ d.dstX.toNat / W) :
    runLength d W = 0 := by
  by_contra hne
  obtain ⟨hlt, hpos, -⟩ := clip1d_pos hne
  rcases h with hw | hcap
  · rw [hw] at hpos
    exact absurd hpos (lt_irrefl 0)
  · omega

/-- Settles O25: an empty run lists no access and leaves memory and record as they are. -/
theorem blit1dEmptyRunChangesNothing : Obligations.Blit1dEmptyRunChangesNothing := by
  unfold Obligations.Blit1dEmptyRunChangesNothing
  intro op wd ws W s hready hempty
  have hn := runLength_eq_zero hempty
  have hnone : blit1dAccesses op W s.desc = [] := by rw [blit1dAccesses, hn, rowAccesses_empty]
  rw [exec_blit1d_accepted hready (hnone ▸ List.forall_mem_nil _), blit1dRun, blit1d_empty hn, List.append_nil]

/-- Settles O26: the second command sees the same descriptors and holes, and has the effect of the same run. -/
theorem blit1dIssuedTwice : Obligations.Blit1dIssuedTwice := by
  unfold Obligations.Blit1dIssuedTwice
  intro op wd ws W s hready hapart hcomplete
  have hW := widthBits_cases hready.1
  have heffect := blit1dRun_effect hW hapart op
  refine ⟨_, _, exec_blit1d_accepted hready hcomplete, exec_blit1d_accepted hready hcomplete, fun a => ?_⟩
  exact (heffect ⟨s.mem, []⟩).read_twice (heffect ⟨_, []⟩) (blit1dBits_separate hW hapart) a

end Sys2Proof.Machine
end

section
/-! The rectangular blits (42_blit2d.md R150 to R163): where the pixels of a clipped rectangle lie, the net effect of
both realizations as the union of what their rows and pixels do, and the statements about BLIT2D and BLIT2DP. -/

namespace Sys2Proof.Machine

/-! ### One bit of an element (42_blit2d.md R155, R162) -/

/-- A mask of one bit. -/
theorem oneBitMask_getLsbD {W db b : Nat} (hb : b < W) : (1#W <<< db).getLsbD b = true ↔ b = db := by
  rw [BitVec.getLsbD_shiftLeft, BitVec.getLsbD_one]
  simp only [Bool.and_eq_true, decide_eq_true_eq, Bool.not_eq_true', decide_eq_false_iff_not]
  omega

/-- A pixel in its place. -/
theorem shiftedPixel_getLsbD {W db b : Nat} (pixel : Bool) (hb : b < W) :
    ((BitVec.ofBool pixel).setWidth W <<< db).getLsbD b = (decide (b = db) && pixel) := by
  rw [BitVec.getLsbD_shiftLeft, BitVec.getLsbD_setWidth, BitVec.getLsbD_ofBool]
  by_cases h : b = db
  · subst h
    simp [hb, Nat.zero_lt_of_lt hb]
  · have : b < db ∨ b - db ≠ 0 := by omega
    rcases this with hlt | hne <;> simp [*]

/-- The element a pixel step writes: the new pixel in place of one bit, the others as they were. -/
theorem replaceBit_getLsbD {W db b : Nat} (v : BitVec W) (pixel : Bool) (hb : b < W) :
    ((v &&& ~~~(1#W <<< db)) ||| ((BitVec.ofBool pixel).setWidth W <<< db)).getLsbD b =
      if b = db then pixel else v.getLsbD b := by
  have hmask := oneBitMask_getLsbD (db := db) hb
  rw [BitVec.getLsbD_or, getLsbD_and_not _ _ hb, shiftedPixel_getLsbD _ hb]
  by_cases h : b = db
  · rw [hmask.2 h]
    simp [h]
  · rw [Bool.eq_false_iff.2 (mt hmask.1 h)]
    simp [h]

/-- The shift by db - sb brings bit sb of the source to bit db. -/
theorem shiftSource_sub_getLsbD {W db sb : Nat} (s : BitVec W) (hdb : db < W) :
    (shiftSource s ((db : Int) - (sb : Int))).getLsbD db = s.getLsbD sb := by
  rcases Nat.le_total sb db with hle | hle
  · rw [← Int.ofNat_sub hle, shiftSource_natCast, BitVec.getLsbD_shiftLeft, Nat.sub_sub_self hle]
    simp [hdb]
  · rw [← Int.neg_sub, ← Int.ofNat_sub hle, shiftSource_neg_natCast, BitVec.getLsbD_ushiftRight, Nat.sub_add_cancel hle]

/-- Settles O33: both sides replace bit db by the table's value and keep the other bits. -/
theorem pixelStepIsOneBitRmw : Obligations.PixelStepIsOneBitRmw := by
  unfold Obligations.PixelStepIsOneBitRmw
  intro op W db sb d s hdb hsb
  refine ⟨BitVec.eq_of_getLsbD_eq fun b hb => ?_, by omega⟩
  rw [replaceBit_getLsbD _ _ hb, rmw_getLsbD hb, BitVec.setWidth_eq]
  by_cases h : b = db
  · rw [if_pos h, if_pos ((oneBitMask_getLsbD hb).2 h), h, shiftSource_sub_getLsbD s hdb]
  · rw [if_neg h, if_neg (mt (oneBitMask_getLsbD hb).1 h)]

/-- Bit b of an element just written. -/
theorem memBit_writeElem_same (m : Memory) (a : Word) {W b : Nat} (v : BitVec W) (h8 : 8 ∣ W) (hW : W ≤ 2 ^ 32)
    (hb : b < W) : memBit (m.writeElem a v) (byteAddr a (b / 8)) (b % 8) = v.getLsbD b := by
  rw [memBit, ← Memory.readElem_getLsbD _ _ h8 hb, Memory.readElem_writeElem_same _ _ _ h8 hW]

/-- An element written with at most bit db changed leaves every other bit of memory as it was. -/
theorem memBit_writeElem_otherBit {m : Memory} {a x : Word} {W db k : Nat} {v : BitVec W} (h8 : 8 ∣ W)
    (hW : W ≤ 2 ^ 32) (hv : ∀ b < W, b ≠ db → v.getLsbD b = (m.readElem a W).getLsbD b) (hk : k < 8)
    (hne : (byteAddr a (db / 8), db % 8) ≠ (x, k)) : memBit (m.writeElem a v) x k = memBit m x k := by
  by_cases hin : ∃ j < W / 8, byteAddr a j = x
  · obtain ⟨j, hj, rfl⟩ := hin
    obtain ⟨hbyte, hbit⟩ : (8 * j + k) / 8 = j ∧ (8 * j + k) % 8 = k := by omega
    have hb : 8 * j + k < W := by omega
    have hdb : 8 * j + k ≠ db := by
      rintro rfl
      exact hne (by rw [hbyte, hbit])
    have hnew := memBit_writeElem_same m a v h8 hW hb
    rw [hv _ hb hdb, Memory.readElem_getLsbD _ _ h8 hb] at hnew
    rwa [hbyte, hbit] at hnew
  · push Not at hin
    rw [memBit, Memory.read_writeElem_other _ _ _ _ fun j hj he => hin j hj (BitVec.eq_of_toNat_eq he), memBit]

/-! ### The pixels of a clipped rectangle -/

/-- Where a bit of a bit buffer is counted from its base (00_scope.md R13, 20_memory.md R53). -/
theorem bitHome_flat (base : Word) {W : Nat} (hW : W = 8 ∨ W = 16 ∨ W = 32) (row i : Nat) :
    bitHome base W row i = (byteAddr base ((row * W + i) / 8), (row * W + i) % 8) := by
  have hbyte : (row + i / W) * (W / 8) + i % W / 8 = (row * W + i) / 8 := by rcases hW with rfl | rfl | rfl <;> omega
  have hbit : i % 8 = (row * W + i) % 8 := by rcases hW with rfl | rfl | rfl <;> omega
  rw [bitHome, byteAddr_elemAddr, hbyte, hbit]

section rectangle
variable (d : Descriptors) (W : Nat)

/-- Pixel x of row r belongs to the clipped rectangle (42_blit2d.md R151). -/
def InRect (r x : Nat) : Prop := r < (clip2d d W).hclip ∧ x < (clip2d d W).wclip

/-- Where pixel x of row r lies in the destination. -/
def dstPixel (r x : Nat) : Word × Nat :=
  bitHome d.dstBase W ((d.dstY.toNat + r) * d.dstCap.toNat) (d.dstX.toNat + x)

/-- Where pixel x of row r lies in the source, whose rows are pitch elements apart (42_blit2d.md R153). -/
def srcPixel (r x : Nat) : Word × Nat := bitHome d.srcBase W (r * (clip2d d W).pitch) x

/-- The bit of memory at a place. -/
def bitAt (m : Memory) (place : Word × Nat) : Bool := memBit m place.1 place.2

theorem bitAt_dstPixel (m : Memory) {W : Nat} (hW : 0 < W) (h8 : 8 ∣ W) (r x : Nat) :
    bitAt m (dstPixel d W r x) =
      rowBit m d.dstBase W ((d.dstY.toNat + r) * d.dstCap.toNat) (d.dstX.toNat + x) :=
  memBit_bitHome m _ _ hW h8 _

theorem bitAt_srcPixel (m : Memory) {W : Nat} (hW : 0 < W) (h8 : 8 ∣ W) (r x : Nat) :
    bitAt m (srcPixel d W r x) = rowBit m d.srcBase W (r * (clip2d d W).pitch) x :=
  memBit_bitHome m _ _ hW h8 _

/-- A destination that fits and a source apart from it (70_reset_and_hazards.md R244, R246), as the pixels see it. -/
structure PixelsSeparate : Prop where
  width : W = 8 ∨ W = 16 ∨ W = 32
  dst_inj : ∀ {r x r' x'}, InRect d W r x → InRect d W r' x' → dstPixel d W r x = dstPixel d W r' x' → r = r' ∧ x = x'
  src_ne : ∀ {r x r' x'}, InRect d W r x → InRect d W r' x' → dstPixel d W r' x' ≠ srcPixel d W r x

end rectangle

section separate
variable {d : Descriptors} {W : Nat}

theorem InRect.column_lt {r x : Nat} (h : InRect d W r x) : d.dstX.toNat + x < d.dstCap.toNat * W :=
  (Nat.add_lt_add_left h.2 _).trans_le (clippedWidth_le (Nat.ne_zero_of_lt h.2))

/-- A row of the clipped rectangle ends within the destination's elements. -/
theorem rowEnd_le {r : Nat} (hr : r < (clip2d d W).hclip) :
    (d.dstY.toNat + r) * d.dstCap.toNat + d.dstCap.toNat ≤ d.dstCap.toNat * d.dstRows.toNat := by
  rw [← Nat.succ_mul, Nat.mul_comm d.dstCap.toNat]
  exact Nat.mul_le_mul_right _ (clippedRow_lt hr)

/-- The flat bit number of a pixel tells row and column, since columns lie below the row length. -/
theorem row_column_unique {n a b i j : Nat} (hi : i < n) (hj : j < n) (h : a * n + i = b * n + j) : a = b ∧ i = j := by
  have hn : 0 < n := by omega
  have hdiv := congrArg (· / n) h
  have hmod := congrArg (· % n) h
  simp only [Nat.mul_comm _ n, Nat.mul_add_div hn, Nat.mul_add_mod, Nat.div_eq_of_lt hi, Nat.div_eq_of_lt hj,
    Nat.mod_eq_of_lt hi, Nat.mod_eq_of_lt hj] at hdiv hmod
  exact ⟨hdiv, hmod⟩

/-- In a destination that fits, two pixels of the rectangle lie at two places. -/
theorem dstPixel_injective (hW : W = 8 ∨ W = 16 ∨ W = 32) (hfits : rectFits d W) {r x r' x' : Nat}
    (h : InRect d W r x) (h' : InRect d W r' x') (he : dstPixel d W r x = dstPixel d W r' x') : r = r' ∧ x = x' := by
  have hbound : ∀ {r x}, InRect d W r x →
      ((d.dstY.toNat + r) * d.dstCap.toNat * W + (d.dstX.toNat + x)) / 8 < 2 ^ 32 := by
    intro r x h
    have hcol := h.column_lt
    have hend := Nat.mul_le_mul_right W (rowEnd_le h.1)
    have hfits' : d.dstCap.toNat * d.dstRows.toNat * (W / 8) ≤ 2 ^ 32 := hfits
    rw [Nat.add_mul] at hend
    rcases hW with rfl | rfl | rfl <;> omega
  rw [dstPixel, dstPixel, bitHome_flat _ hW, bitHome_flat _ hW, Prod.mk.injEq] at he
  have hbyte := byteAddr_inj (hbound h) (hbound h') he.1
  have hflat : (d.dstY.toNat + r) * (d.dstCap.toNat * W) + (d.dstX.toNat + x) =
      (d.dstY.toNat + r') * (d.dstCap.toNat * W) + (d.dstX.toNat + x') := by
    rw [← Nat.mul_assoc, ← Nat.mul_assoc]
    omega
  have hunique := row_column_unique h.column_lt h'.column_lt hflat
  omega

/-- With source and destination apart no source pixel lies at a destination pixel's place. -/
theorem dstPixel_ne_srcPixel (hW : 0 < W) (h8 : 8 ∣ W) (hapart : blit2dApart d W) {r x r' x' : Nat}
    (h : InRect d W r x) (h' : InRect d W r' x') : dstPixel d W r' x' ≠ srcPixel d W r x := by
  intro he
  have hsrc : x / W < ceilDiv (clip2d d W).wclip W := (lt_ceilDiv hW).2 ((Nat.div_mul_le_self _ _).trans_lt h.2)
  have hdst : (d.dstX.toNat + x') / W < ceilDiv (d.dstX.toNat + (clip2d d W).wclip) W :=
    (lt_ceilDiv hW).2 ((Nat.div_mul_le_self _ _).trans_lt (Nat.add_lt_add_left h'.2 _))
  have hbyte : ∀ q, q % W / 8 < W / 8 := fun q => Nat.div_lt_div_of_lt_of_dvd h8 (Nat.mod_lt q hW)
  exact hapart r h.1 _ hsrc r' h'.1 _ hdst (Nat.div_le_div_right (Nat.le_add_right _ _)) _ (hbyte x) _ (hbyte _)
    (congrArg Prod.fst he).symm

theorem pixelsSeparate (hW : W = 8 ∨ W = 16 ∨ W = 32) (hapart : blit2dApart d W) (hfits : rectFits d W) :
    PixelsSeparate d W where
  width := hW
  dst_inj := dstPixel_injective hW hfits
  src_ne := dstPixel_ne_srcPixel (by omega) (by omega) hapart

theorem PixelsSeparate.pos (h : PixelsSeparate d W) : 0 < W := by
  have := h.width
  omega

theorem PixelsSeparate.dvd (h : PixelsSeparate d W) : 8 ∣ W := by
  have := h.width
  omega

theorem PixelsSeparate.le (h : PixelsSeparate d W) : W ≤ 2 ^ 32 := by
  have := h.width
  omega

theorem dstPixel_bit_lt (d : Descriptors) (W r x : Nat) : (dstPixel d W r x).2 < 8 := Nat.mod_lt _ (by omega)

theorem srcPixel_bit_lt (d : Descriptors) (W r x : Nat) : (srcPixel d W r x).2 < 8 := Nat.mod_lt _ (by omega)

end separate

/-! ### The effect on a part of the rectangle -/

/-- The net effect on the pixels of the rectangle that are in `part`: each combined with its source pixel, every other
bit of memory as it was (42_blit2d.md R158, with the whole rectangle for `part`). -/
structure Combined (op : Op) (d : Descriptors) (W : Nat) (part : Nat → Nat → Prop) (m m' : Memory) : Prop where
  run : ∀ r x, InRect d W r x → part r x →
    bitAt m' (dstPixel d W r x) = opBit op (bitAt m (dstPixel d W r x)) (bitAt m (srcPixel d W r x))
  rest : ∀ place : Word × Nat, place.2 < 8 → (∀ r x, InRect d W r x → part r x → dstPixel d W r x ≠ place) →
    bitAt m' place = bitAt m place

/-- The net effect on the whole clipped rectangle (42_blit2d.md R158). -/
abbrev RectEffect (op : Op) (d : Descriptors) (W : Nat) (m m' : Memory) : Prop :=
  Combined op d W (fun _ _ => True) m m'

section combined
variable {op : Op} {d : Descriptors} {W : Nat} {part part' whole : Nat → Nat → Prop} {m m₁ m₂ : Memory}

theorem Combined.of_empty (m : Memory) (h : ∀ r x, InRect d W r x → ¬ part r x) : Combined op d W part m m where
  run r x hin hp := absurd hp (h r x hin)
  rest _ _ _ := rfl

/-- A rectangle with an empty side has no pixel (42_blit2d.md R152). -/
theorem rectEffect_of_empty (h : (clip2d d W).wclip = 0 ∨ (clip2d d W).hclip = 0) (m : Memory) :
    RectEffect op d W m m :=
  .of_empty m fun r x hin => by
    obtain ⟨hr, hx⟩ := hin
    omega

theorem Combined.congr (h : Combined op d W part m m₁) (hpart : ∀ r x, InRect d W r x → (part' r x ↔ part r x)) :
    Combined op d W part' m m₁ where
  run r x hin hp := h.run r x hin ((hpart r x hin).1 hp)
  rest place hk hne := h.rest place hk fun r x hin hp => hne r x hin ((hpart r x hin).2 hp)

/-- A pixel outside the part is as before. -/
theorem Combined.dst_kept (h : Combined op d W part m m₁) (hd : PixelsSeparate d W) {r x : Nat} (hin : InRect d W r x)
    (hp : ¬ part r x) : bitAt m₁ (dstPixel d W r x) = bitAt m (dstPixel d W r x) := by
  refine h.rest _ (dstPixel_bit_lt d W r x) fun r' x' hin' hp' he => ?_
  obtain ⟨rfl, rfl⟩ := hd.dst_inj hin' hin he
  exact hp hp'

/-- The source is as before. -/
theorem Combined.src_kept (h : Combined op d W part m m₁) (hd : PixelsSeparate d W) {r x : Nat} (hin : InRect d W r x) :
    bitAt m₁ (srcPixel d W r x) = bitAt m (srcPixel d W r x) :=
  h.rest _ (srcPixel_bit_lt d W r x) fun _ _ hin' _ => hd.src_ne hin hin'

/-- Two disjoint parts, one after the other, are their union. -/
theorem Combined.union (h₁ : Combined op d W part m m₁) (h₂ : Combined op d W part' m₁ m₂) (hd : PixelsSeparate d W)
    (hdisj : ∀ r x, part r x → ¬ part' r x) (hunion : ∀ r x, InRect d W r x → (whole r x ↔ part r x ∨ part' r x)) :
    Combined op d W whole m m₂ where
  run r x hin hw := by
    rcases (hunion r x hin).1 hw with hp | hp'
    · rw [h₂.dst_kept hd hin (hdisj r x hp), h₁.run r x hin hp]
    · rw [h₂.run r x hin hp', h₁.dst_kept hd hin fun hp => hdisj r x hp hp', h₁.src_kept hd hin]
  rest place hk hne := by
    rw [h₂.rest place hk fun r x hin hp => hne r x hin ((hunion r x hin).2 (.inr hp)),
      h₁.rest place hk fun r x hin hp => hne r x hin ((hunion r x hin).2 (.inl hp))]

/-- A loop over the rows, each pass with the effect on its own row, has the effect on the rectangle. -/
theorem rectEffect_of_rows (hd : PixelsSeparate d W) {row : Nat → Bus → Bus}
    (hrow : ∀ r < (clip2d d W).hclip, ∀ b, Combined op d W (fun r' _ => r' = r) b.mem (row r b).mem) (b : Bus) :
    RectEffect op d W b.mem (iterate row (clip2d d W).hclip b).mem := by
  have hrows : Combined op d W (fun r' _ => r' < (clip2d d W).hclip) b.mem (iterate row (clip2d d W).hclip b).mem := by
    refine iterate_induct (fun k (c : Bus) => Combined op d W (fun r' _ => r' < k) b.mem c.mem) _
      (.of_empty _ fun _ _ _ => Nat.not_lt_zero _) fun r hr c h => ?_
    exact h.union (hrow r hr c) hd (fun _ _ => Nat.ne_of_lt) fun _ _ _ => Nat.lt_succ_iff_lt_or_eq
  exact hrows.congr fun r x hin => ⟨fun _ => hin.1, fun _ => trivial⟩

/-- The same rectangle again: XOR restores every bit, the other operations change nothing more (42_blit2d.md R163). -/
theorem Combined.bitAt_twice (h₁ : Combined op d W part m m₁) (h₂ : Combined op d W part m₁ m₂)
    (hd : PixelsSeparate d W) (place : Word × Nat) (hk : place.2 < 8) :
    bitAt m₂ place = if op = .xor then bitAt m place else bitAt m₁ place := by
  by_cases hpix : ∃ r x, InRect d W r x ∧ part r x ∧ dstPixel d W r x = place
  · obtain ⟨r, x, hin, hp, rfl⟩ := hpix
    rw [h₂.run r x hin hp, h₁.run r x hin hp, h₁.src_kept hd hin, opBit_opBit]
  · push Not at hpix
    rw [h₂.rest place hk hpix, h₁.rest place hk hpix, ite_self]

/-- The effect says what every bit of memory is afterwards. -/
theorem Combined.bitAt_unique (h₁ : Combined op d W part m m₁) (h₂ : Combined op d W part m m₂) (place : Word × Nat)
    (hk : place.2 < 8) : bitAt m₁ place = bitAt m₂ place := by
  by_cases hpix : ∃ r x, InRect d W r x ∧ part r x ∧ dstPixel d W r x = place
  · obtain ⟨r, x, hin, hp, rfl⟩ := hpix
    rw [h₁.run r x hin hp, h₂.run r x hin hp]
  · push Not at hpix
    rw [h₁.rest place hk hpix, h₂.rest place hk hpix]

end combined

/-! ### The element-wise realization (42_blit2d.md R154) -/

section elementwise
variable {op : Op} {d : Descriptors} {W : Nat}

/-- Row r of the clipped rectangle as a run of bits. -/
def rectRow (d : Descriptors) (W r : Nat) : BitRun :=
  { W := W, dst := d.dstBase, src := d.srcBase, de := (d.dstY.toNat + r) * d.dstCap.toNat,
    se := r * (clip2d d W).pitch, p := d.dstX.toNat, n := (clip2d d W).wclip }

theorem rectRow_separate (hW : W = 8 ∨ W = 16 ∨ W = 32) (hapart : blit2dApart d W) (hfits : rectFits d W) {r : Nat}
    (hr : r < (clip2d d W).hclip) (hw : (clip2d d W).wclip ≠ 0) : (rectRow d W r).Separate where
  width := hW
  fits := by
    have hcols : ceilDiv (d.dstX.toNat + (clip2d d W).wclip) W ≤ d.dstCap.toNat :=
      Nat.not_lt.1 fun h => absurd ((lt_ceilDiv (by omega)).1 h) (Nat.not_lt.2 (clippedWidth_le hw))
    exact (Nat.mul_le_mul_right _ ((Nat.add_le_add_left hcols _).trans (rowEnd_le hr))).trans hfits
  apart i hi e he hge := hapart r hr i hi r hr e he hge

/-- The effect of a run along row r is the effect on that row of the rectangle. -/
theorem combined_of_rectRow (hW : 0 < W) (h8 : 8 ∣ W) {r : Nat} (hr : r < (clip2d d W).hclip) {m m' : Memory}
    (h : (rectRow d W r).Effect op m m') : Combined op d W (fun r' _ => r' = r) m m' where
  run r' x hin he := by
    subst he
    rw [bitAt_dstPixel d _ hW h8, bitAt_dstPixel d _ hW h8, bitAt_srcPixel d _ hW h8]
    exact h.run x hin.2
  rest place hk hne := h.rest place.1 place.2 hk fun x hx => hne r x ⟨hr, hx⟩ rfl

theorem blit2dRun_of_empty (h : (clip2d d W).wclip = 0 ∨ (clip2d d W).hclip = 0) (b : Bus) : blit2dRun op W d b = b :=
  if_pos h

theorem blit2dRun_effect (hW : W = 8 ∨ W = 16 ∨ W = 32) (hapart : blit2dApart d W) (hfits : rectFits d W) (b : Bus) :
    RectEffect op d W b.mem (blit2dRun op W d b).mem := by
  by_cases h : (clip2d d W).wclip = 0 ∨ (clip2d d W).hclip = 0
  · rw [blit2dRun_of_empty h]
    exact rectEffect_of_empty h _
  · have hw := (not_or.1 h).1
    have hclip : clip1d d.dstCap.toNat d.dstX.toNat (clip2d d W).wclip W = (clip2d d W).wclip :=
      clip1d_clipSide (by omega) hw
    rw [blit2dRun, if_neg h]
    refine rectEffect_of_rows (pixelsSeparate hW hapart hfits) (fun r hr c => ?_) b
    exact combined_of_rectRow (by omega) (by omega) hr
      (BitRun.blit1d_effect (r := rectRow d W r) (rectRow_separate hW hapart hfits hr hw) hclip op c)

end elementwise

/-! ### The per-pixel realization (42_blit2d.md R155) -/

section perPixel
variable {op : Op} {d : Descriptors} {W : Nat}

/-- One pixel step has the effect on its pixel. -/
theorem pixelStep_combined (hd : PixelsSeparate d W) {r x : Nat} (hin : InRect d W r x) (b : Bus) :
    Combined op d W (fun r' x' => r' = r ∧ x' = x) b.mem (pixelStep op W d (clip2d d W) r x b).mem := by
  have hbit := Nat.mod_lt (d.dstX.toNat + x) hd.pos
  have hplace : dstPixel d W r x =
      (byteAddr (elemAddr d.dstBase ((d.dstY.toNat + r) * d.dstCap.toNat + (d.dstX.toNat + x) / W) W)
        ((d.dstX.toNat + x) % W / 8), (d.dstX.toNat + x) % W % 8) := by
    rw [Nat.mod_mod_of_dvd _ hd.dvd]
    rfl
  constructor
  · rintro r' x' - ⟨rfl, rfl⟩
    rw [bitAt_dstPixel d b.mem hd.pos hd.dvd, bitAt_srcPixel d b.mem hd.pos hd.dvd, hplace, bitAt, pixelStep_mem]
    refine (memBit_writeElem_same _ _ _ hd.dvd hd.le hbit).trans ?_
    rw [replaceBit_getLsbD _ _ hbit]
    exact if_pos rfl
  · intro place hk hne
    have hne' := hne r x hin ⟨rfl, rfl⟩
    rw [hplace] at hne'
    rw [bitAt, pixelStep_mem]
    refine memBit_writeElem_otherBit hd.dvd hd.le (fun q hq hqne => ?_) hk hne'
    rw [replaceBit_getLsbD _ _ hq]
    exact if_neg hqne

/-- The pixel steps of a row have the effect on that row. -/
theorem pixelRow_combined (hd : PixelsSeparate d W) {r : Nat} (hr : r < (clip2d d W).hclip) (b : Bus) :
    Combined op d W (fun r' _ => r' = r) b.mem
      (iterate (fun x => pixelStep op W d (clip2d d W) r x) (clip2d d W).wclip b).mem := by
  have hpixels := iterate_induct
    (fun k (c : Bus) => Combined op d W (fun r' x' => r' = r ∧ x' < k) b.mem c.mem) (clip2d d W).wclip
    (.of_empty _ fun _ _ _ h => Nat.not_lt_zero _ h.2)
    fun x hx c h => h.union (pixelStep_combined hd ⟨hr, hx⟩ c) hd (fun _ _ h h' => Nat.ne_of_lt h.2 h'.2)
      fun r' x' _ => by rw [← and_or_left, Nat.lt_succ_iff_lt_or_eq]
  exact hpixels.congr fun r' x hin => ⟨fun h => ⟨h, hin.2⟩, And.left⟩

theorem blit2dpRun_of_empty (h : (clip2d d W).wclip = 0 ∨ (clip2d d W).hclip = 0) (b : Bus) : blit2dpRun op W d b = b :=
  if_pos h

theorem blit2dpRun_effect (hd : PixelsSeparate d W) (b : Bus) : RectEffect op d W b.mem (blit2dpRun op W d b).mem := by
  by_cases h : (clip2d d W).wclip = 0 ∨ (clip2d d W).hclip = 0
  · rw [blit2dpRun_of_empty h]
    exact rectEffect_of_empty h _
  · rw [blit2dpRun, if_neg h]
    exact rectEffect_of_rows hd (fun r hr => pixelRow_combined hd hr) b

end perPixel

/-! ### The commands (42_blit2d.md R160) -/

/-- The two realizations of a rectangle and the accesses each makes. -/
inductive RectRun (op : Op) (W : Nat) (d : Descriptors) : (Bus → Bus) → List BusAccess → Prop
  | elementwise : RectRun op W d (blit2dRun op W d) (blit2dAccesses op W d)
  | perPixel : RectRun op W d (blit2dpRun op W d) (blit2dpAccesses W d)

section commands
variable {op : Op} {wd ws : WidthCode} {W : Nat} {d : Descriptors} {s : State} {run : Bus → Bus} {accs : List BusAccess}

theorem RectRun.shapes (h : RectRun op W d run accs) (hW : 0 < W) (b : Bus) : (run b).shapes = b.shapes ++ accs := by
  cases h with
  | elementwise => exact blit2dRun_shapes op d b hW
  | perPixel => exact blit2dpRun_shapes op d b

theorem RectRun.effect (h : RectRun op W d run accs) (hW : W = 8 ∨ W = 16 ∨ W = 32) (hapart : blit2dApart d W)
    (hfits : rectFits d W) (b : Bus) : RectEffect op d W b.mem (run b).mem := by
  cases h with
  | elementwise => exact blit2dRun_effect hW hapart hfits b
  | perPixel => exact blit2dpRun_effect (pixelsSeparate hW hapart hfits) b

/-- What rectReady says is what the checks of the rectangular blits ask. -/
theorem blit2dChecks_of_rectReady (h : rectReady d wd ws W) : blit2dChecks d wd ws = .ok W := by
  obtain ⟨⟨hwd, hws, hdst, hsrc, hcap⟩, hrows⟩ := h
  exact blit2dChecks_ok.2 ⟨sameWidth_ok.2 ⟨hwd, hws⟩, misalignedBases_eq_false.2 ⟨hdst, hsrc⟩, hcap, hrows⟩

theorem exec_blit2d_ready (h : rectReady s.desc wd ws W) :
    exec (.blit2d op wd ws) s = s.finish (blit2dRun op W s.desc) := by
  rw [exec_blit2d, blit2dCommand, blit2dChecks_of_rectReady h]
  rfl

theorem exec_blit2dp_ready (h : rectReady s.desc wd ws W) :
    exec (.blit2dp op wd ws) s = s.finish (blit2dpRun op W s.desc) := by
  rw [exec_blit2dp, blit2dpCommand, blit2dChecks_of_rectReady h]
  rfl

/-- Either realization, its listed accesses completed, leaves the memory and the record of its run. -/
theorem RectRun.finish (h : RectRun op W d run accs) (hwd : widthBits wd = some W)
    (hcomplete : allComplete s.holes accs) :
    s.finish run = .next { s with
      mem := (run ⟨s.mem, []⟩).mem, trace := s.trace ++ (run ⟨s.mem, []⟩).log } :=
  State.finish_of_allComplete (h.shapes (widthBits_pos hwd) _) hcomplete

end commands

/-- Settles O30: the record of the run, which does not depend on what memory holds. -/
theorem blit2dMakesListedAccesses : Obligations.Blit2dMakesListedAccesses := by
  unfold Obligations.Blit2dMakesListedAccesses
  intro op wd ws W s hready hcomplete
  have hrun := RectRun.elementwise (op := op) (W := W) (d := s.desc)
  have hwd := hready.1.1
  exact ⟨_, _, (exec_blit2d_ready hready).trans (hrun.finish hwd hcomplete), rfl, hrun.shapes (widthBits_pos hwd) _⟩

/-- Settles O31: as for BLIT2D, with the record of the pixel steps. -/
theorem blit2dpMakesListedAccesses : Obligations.Blit2dpMakesListedAccesses := by
  unfold Obligations.Blit2dpMakesListedAccesses
  intro op wd ws W s hready hcomplete
  have hrun := RectRun.perPixel (op := op) (W := W) (d := s.desc)
  have hwd := hready.1.1
  exact ⟨_, _, (exec_blit2dp_ready hready).trans (hrun.finish hwd hcomplete), rfl, hrun.shapes (widthBits_pos hwd) _⟩

/-! ### The net effect and what follows from it (42_blit2d.md R157, R158, R163) -/

/-- The effect on the rectangle, with its bits counted by rows. -/
theorem RectEffect.rows {op : Op} {d : Descriptors} {W : Nat} {m m' : Memory} (h : RectEffect op d W m m') (hW : 0 < W)
    (h8 : 8 ∣ W) :
    (∀ r < (clip2d d W).hclip, ∀ x < (clip2d d W).wclip,
      rowBit m' d.dstBase W ((d.dstY.toNat + r) * d.dstCap.toNat) (d.dstX.toNat + x) =
        opBit op (rowBit m d.dstBase W ((d.dstY.toNat + r) * d.dstCap.toNat) (d.dstX.toNat + x))
          (rowBit m d.srcBase W (r * ceilDiv d.srcW.toNat W) x)) ∧
    ∀ (a : Word) (k : Nat), k < 8 →
      (∀ r < (clip2d d W).hclip, ∀ x < (clip2d d W).wclip,
        bitHome d.dstBase W ((d.dstY.toNat + r) * d.dstCap.toNat) (d.dstX.toNat + x) ≠ (a, k)) →
      memBit m' a k = memBit m a k := by
  refine ⟨fun r hr x hx => ?_, fun a k hk hne => h.rest (a, k) hk fun r x hin _ => hne r hin.1 x hin.2⟩
  rw [← bitAt_dstPixel d _ hW h8, ← bitAt_dstPixel d _ hW h8]
  exact (h.run r x ⟨hr, hx⟩ trivial).trans (congrArg _ (bitAt_srcPixel d m hW h8 r x))

/-- Settles O27: the effects of the rows, one after the other. -/
theorem blit2dNetEffect : Obligations.Blit2dNetEffect := by
  unfold Obligations.Blit2dNetEffect
  intro op wd ws W s hready hapart hfits hcomplete
  have hrun := RectRun.elementwise (op := op) (W := W) (d := s.desc)
  have hW := widthBits_cases hready.1.1
  exact ⟨_, (exec_blit2d_ready hready).trans (hrun.finish hready.1.1 hcomplete), rfl,
    (hrun.effect hW hapart hfits ⟨s.mem, []⟩).rows (by omega) (by omega)⟩

/-- Settles O28: the effects of the pixel steps, one after the other. -/
theorem blit2dpNetEffect : Obligations.Blit2dpNetEffect := by
  unfold Obligations.Blit2dpNetEffect
  intro op wd ws W s hready hapart hfits hcomplete
  have hrun := RectRun.perPixel (op := op) (W := W) (d := s.desc)
  have hW := widthBits_cases hready.1.1
  exact ⟨_, (exec_blit2dp_ready hready).trans (hrun.finish hready.1.1 hcomplete), rfl,
    (hrun.effect hW hapart hfits ⟨s.mem, []⟩).rows (by omega) (by omega)⟩

/-- Settles O29: both runs have the effect on the rectangle, which determines every bit of memory. -/
theorem realizationsLeaveSameMemory : Obligations.RealizationsLeaveSameMemory := by
  unfold Obligations.RealizationsLeaveSameMemory
  intro op wd ws W s hready hapart hfits hcomplete hcomplete'
  have hrun := RectRun.elementwise (op := op) (W := W) (d := s.desc)
  have hrun' := RectRun.perPixel (op := op) (W := W) (d := s.desc)
  have hW := widthBits_cases hready.1.1
  refine ⟨_, _, (exec_blit2d_ready hready).trans (hrun.finish hready.1.1 hcomplete),
    (exec_blit2dp_ready hready).trans (hrun'.finish hready.1.1 hcomplete'), fun a => ?_⟩
  exact BitVec.eq_of_getLsbD_eq fun k hk =>
    (hrun.effect hW hapart hfits ⟨s.mem, []⟩).bitAt_unique (hrun'.effect hW hapart hfits ⟨s.mem, []⟩) (a, k) hk

/-- Settles O35: the second command sees the same descriptors and holes, and has the effect on the same rectangle. -/
theorem rectangleIssuedTwice : Obligations.RectangleIssuedTwice := by
  unfold Obligations.RectangleIssuedTwice
  intro op wd ws W s i accs hi hready hapart hfits hcomplete
  have hW := widthBits_cases hready.1.1
  obtain ⟨run, hrun, hfinish⟩ : ∃ run, RectRun op W s.desc run accs ∧
      ∀ t : State, t.desc = s.desc → exec i t = t.finish run := by
    rcases hi with ⟨rfl, rfl⟩ | ⟨rfl, rfl⟩
    · exact ⟨_, .elementwise, fun t ht => ht ▸ exec_blit2d_ready (ht ▸ hready)⟩
    · exact ⟨_, .perPixel, fun t ht => ht ▸ exec_blit2dp_ready (ht ▸ hready)⟩
  have hexec : ∀ t : State, t.desc = s.desc → t.holes = s.holes → exec i t = .next { t with
      mem := (run ⟨t.mem, []⟩).mem, trace := t.trace ++ (run ⟨t.mem, []⟩).log } := fun t hdesc hholes =>
    (hfinish t hdesc).trans (hrun.finish hready.1.1 (hholes ▸ hcomplete))
  refine ⟨_, _, hexec s rfl rfl, hexec _ rfl rfl, fun a => ?_⟩
  refine BitVec.eq_of_getLsbD_eq fun k hk => ?_
  rw [apply_ite (BitVec.getLsbD · k)]
  exact (hrun.effect hW hapart hfits ⟨s.mem, []⟩).bitAt_twice (hrun.effect hW hapart hfits ⟨_, []⟩)
    (pixelsSeparate hW hapart hfits) (a, k) hk

/-! ### Empty rectangles and rectangles of one row (42_blit2d.md R152, R161) -/

/-- A command whose run leaves the bus as it is changes nothing. -/
theorem State.finish_of_idle {s : State} {run : Bus → Bus} (h : run ⟨s.mem, []⟩ = ⟨s.mem, []⟩) :
    s.finish run = .next s :=
  State.finish_next.2 (by simp [h])

/-- A side that starts at or beyond its bound, or of size 0, leaves nothing (42_blit2d.md R152). -/
theorem clipSide_eq_zero {start size bound : Nat} (h : bound ≤ start ∨ size = 0) : clipSide start size bound = 0 := by
  by_contra hne
  have := clipSide_pos hne
  omega

/-- Settles O32: each of the four causes empties a side of the clipped rectangle. -/
theorem emptyRectangleChangesNothing : Obligations.EmptyRectangleChangesNothing := by
  unfold Obligations.EmptyRectangleChangesNothing
  intro op wd ws W s hready hcause
  have hempty : (clip2d s.desc W).wclip = 0 ∨ (clip2d s.desc W).hclip = 0 := by
    rcases hcause with hX | hY | hw | hh
    · exact .inl (clipSide_eq_zero (.inl hX))
    · exact .inr (clipSide_eq_zero (.inl hY))
    · exact .inl (clipSide_eq_zero (.inr (congrArg BitVec.toNat hw)))
    · exact .inr (clipSide_eq_zero (.inr (congrArg BitVec.toNat hh)))
  rw [exec_blit2d_ready hready, exec_blit2dp_ready hready]
  exact ⟨State.finish_of_idle (blit2dRun_of_empty hempty _), State.finish_of_idle (blit2dpRun_of_empty hempty _)⟩

/-- The clamp of a linear run and the clipping of a row are the same. -/
theorem clip1d_eq_clipSide {W : Nat} (hW : 0 < W) (cap off len : Nat) :
    clip1d cap off len W = clipSide off len (cap * W) := by
  have hdm := Nat.div_add_mod' off W
  rw [clip1d, clipSide, Nat.sub_mul]
  by_cases h : off < cap * W
  · rw [if_neg (Nat.not_le.2 ((Nat.div_lt_iff_lt_mul hW).2 h)), if_pos h]
    omega
  · rw [if_pos ((Nat.le_div_iff_mul_le hW).2 (Nat.not_lt.1 h)), if_neg h]

/-- Blit1D depends on the length only through the clipped run. -/
theorem blit1d_congr_length {op : Op} {W : Nat} {dst src : Word} {dbase cap off sbase len len' : Nat} {b : Bus}
    (h : clip1d cap off len W = clip1d cap off len' W) :
    blit1d op W dst src dbase cap off sbase len b = blit1d op W dst src dbase cap off sbase len' b := by
  rw [blit1d, blit1d, h]

section oneRow
variable {d : Descriptors} {W : Nat}

theorem clip2d_oneRow (hrows : d.dstRows = 1) (hY : d.dstY = 0) (hh : d.srcH = 1) : (clip2d d W).hclip = 1 := by
  simp [clip2d, clipSide, hrows, hY, hh]

theorem blit2dChecks_oneRow (hrows : d.dstRows = 1) (wd ws : WidthCode) :
    blit2dChecks d wd ws = blit1dChecks d wd ws := by
  simp [blit2dChecks, blit1dChecks, hrows]

/-- The linear blit of the only row (42_blit2d.md R161). -/
theorem blit2dRun_oneRow (hW : 0 < W) (hrows : d.dstRows = 1) (hY : d.dstY = 0) (hh : d.srcH = 1) (op : Op) :
    blit2dRun op W d = blit1dRun op W d := by
  funext b
  have hh1 := clip2d_oneRow (W := W) hrows hY hh
  have hrun : clip1d d.dstCap.toNat d.dstX.toNat d.srcW.toNat W = (clip2d d W).wclip := clip1d_eq_clipSide hW _ _ _
  by_cases hw : (clip2d d W).wclip = 0
  · rw [blit2dRun_of_empty (.inl hw), blit1dRun, blit1d_empty (hrun.trans hw)]
  · have hrow : ((clip2d d W).Y + 0) * (clip2d d W).stride = 0 := by simp [clip2d, hY]
    rw [blit2dRun, if_neg (by omega), hh1, iterate_succ, iterate_zero, hrow, Nat.zero_mul, blit1dRun]
    exact blit1d_congr_length ((clip1d_clipSide hW hw).trans hrun.symm)

end oneRow

/-- Settles O34: the checks are BLIT1D's, and so is the run once they accept. -/
theorem oneRowRectangleIsBlit1d : Obligations.OneRowRectangleIsBlit1d := by
  unfold Obligations.OneRowRectangleIsBlit1d
  intro op wd ws s hrows hY hh
  rw [exec_blit2d, exec_blit1d, blit2dCommand, blit1dCommand, blit2dChecks_oneRow hrows]
  cases hchecks : blit1dChecks s.desc wd ws with
  | error e => rfl
  | ok W =>
    have hW := widthBits_pos (sameWidth_ok.1 (blit1dChecks_ok.1 hchecks).1).1
    exact congrArg s.finish (blit2dRun_oneRow hW hrows hY hh op)

end Sys2Proof.Machine
end

section
/-! PACK (43_pack.md R180 to R191): what a slot leaves in the held destination element, the invariant of the slots, and
the statements about the PACK command. -/

namespace Sys2Proof.Machine

/-! ### The source bit stream (43_pack.md R189) -/

/-- The stream positions of source element j, from its most significant bit down. -/
theorem streamBit_element (m : Memory) (src : Word) {Ws j q : Nat} (hlo : j * Ws ≤ q) (hhi : q < (j + 1) * Ws) :
    streamBit m src Ws q = (m.readElem (elemAddr src j Ws) Ws).getLsbD ((j + 1) * Ws - 1 - q) := by
  have hdiv : q / Ws = j := Nat.div_eq_of_lt_le hlo hhi
  have hdm := Nat.div_add_mod' q Ws
  have hbit : Ws - 1 - q % Ws = (j + 1) * Ws - 1 - q := by
    rw [hdiv] at hdm
    rw [Nat.succ_mul] at hhi ⊢
    omega
  rw [streamBit, hdiv, hbit]

/-- Both shifts of a slot line source element j up with the stream: destination bit Wd - 1 - i is given position s + i
(43_pack.md R183, R184). -/
theorem shiftSource_element_getLsbD (m : Memory) (src : Word) {Wd Ws s j i : Nat} {sh : Int} (hle : Ws ≤ Wd)
    (hi : i < Wd) (hlo : j * Ws ≤ s + i) (hhi : s + i < (j + 1) * Ws)
    (hsh : sh = (Wd : Int) + s - ((j + 1) * Ws : Nat)) :
    (shiftSource ((m.readElem (elemAddr src j Ws) Ws).setWidth Wd) sh).getLsbD (Wd - 1 - i) =
      streamBit m src Ws (s + i) := by
  have hbit : (j + 1) * Ws - 1 - (s + i) < Wd := by
    rw [Nat.succ_mul]
    omega
  have hcast : sh = ((Wd - 1 - i : Nat) : Int) - (((j + 1) * Ws - 1 - (s + i) : Nat) : Int) := by omega
  rw [hcast, shiftSource_sub_getLsbD _ (by omega), BitVec.getLsbD_setWidth, decide_eq_true hbit, Bool.true_and,
    streamBit_element m src hlo hhi]

/-! ### One slot (43_pack.md R183, R184, R186) -/

/-- The mask of slot k's main transform (43_pack.md R183). -/
def packMainMask (Wd Ws s k : Nat) : BitVec Wd :=
  ((BitVec.allOnes Ws <<< s).setWidth Wd) <<< (Wd - (k + 1) * Ws)

/-- The mask of slot k's carry transform (43_pack.md R184). -/
def packCarryMask (Wd Ws s k : Nat) : BitVec Wd := ones Wd s <<< (Wd - (k + 1) * Ws)

section masks
variable {Wd Ws s k i : Nat}

/-- The main transform covers the positions of slot k whose stream bit is still in source element k. -/
theorem packMainMask_getLsbD (hi : i < Wd) (hk : (k + 1) * Ws ≤ Wd) :
    (packMainMask Wd Ws s k).getLsbD (Wd - 1 - i) = true ↔ k * Ws ≤ i ∧ s + i < (k + 1) * Ws := by
  rw [packMainMask, BitVec.getLsbD_shiftLeft, BitVec.getLsbD_setWidth, BitVec.getLsbD_shiftLeft, BitVec.getLsbD_allOnes]
  simp only [Bool.and_eq_true, decide_eq_true_eq, Bool.not_eq_true', decide_eq_false_iff_not]
  rw [Nat.succ_mul] at hk ⊢
  omega

/-- The carry transform covers the positions of slot k whose stream bit is in source element k + 1. -/
theorem packCarryMask_getLsbD (hi : i < Wd) (hk : (k + 1) * Ws ≤ Wd) :
    (packCarryMask Wd Ws s k).getLsbD (Wd - 1 - i) = true ↔ (k + 1) * Ws ≤ s + i ∧ i < (k + 1) * Ws := by
  rw [packCarryMask, BitRun.shifted_ones_getLsbD (by omega)]
  omega

/-- Without a shift there is nothing to carry (43_pack.md R184). -/
theorem packCarryMask_zero : packCarryMask Wd Ws 0 k = 0 := by
  simp [packCarryMask, ones]

end masks

section slot
variable (op : Op) {Wd Ws : Nat} (src : Word) (s N k : Nat) (h : PackHeld Wd Ws)

/-- A slot is its main transform followed by its carry transform, whose mask is empty when nothing is carried. -/
theorem packSlot_d :
    (packSlot op Wd Ws src s N k h).d =
      rmw op (rmw op h.d h.cur (packMainMask Wd Ws s k) ((Wd - (k + 1) * Ws + s : Nat) : Int))
        (h.bus.mem.readElem (elemAddr src (k + 1) Ws) Ws) (packCarryMask Wd Ws s k)
        (packCarryShift (Wd - (k + 1) * Ws) Ws s) := by
  by_cases hs : s = 0
  · subst hs
    rw [packCarryMask_zero, rmw_zero_mask]
    by_cases hk : k + 1 ≤ N - 1
    · rw [packSlot_plain hk]; rfl
    · rw [packSlot_last hk]; rfl
  · rw [packSlot_carry hs]; rfl

/-- A slot writes no memory. -/
@[simp] theorem packSlot_mem : (packSlot op Wd Ws src s N k h).bus.mem = h.bus.mem := by
  by_cases hs : s = 0
  · subst hs
    by_cases hk : k + 1 ≤ N - 1
    · rw [packSlot_plain hk, srcRead_mem]
    · rw [packSlot_last hk]
  · rw [packSlot_carry hs, srcRead_mem]

variable {s N k}

/-- A slot that carries or is followed by another leaves the next source element held. -/
theorem packSlot_cur (hk : s ≠ 0 ∨ k + 1 < N) :
    (packSlot op Wd Ws src s N k h).cur = h.bus.mem.readElem (elemAddr src (k + 1) Ws) Ws := by
  by_cases hs : s = 0
  · subst hs
    rw [packSlot_plain (by omega)]
  · rw [packSlot_carry hs]

variable {op src h} {i : Nat}

/-- Slot k gives its Ws destination bits the stream bits of their positions and keeps the others. -/
theorem packSlot_getLsbD (hs : s < Ws) (hk : (k + 1) * Ws ≤ Wd)
    (hcur : h.cur = h.bus.mem.readElem (elemAddr src k Ws) Ws) (hi : i < Wd) :
    (packSlot op Wd Ws src s N k h).d.getLsbD (Wd - 1 - i) =
      if k * Ws ≤ i ∧ i < (k + 1) * Ws then
        opBit op (h.d.getLsbD (Wd - 1 - i)) (streamBit h.bus.mem src Ws (s + i))
      else h.d.getLsbD (Wd - 1 - i) := by
  have hb : Wd - 1 - i < Wd := by omega
  have hmain := packMainMask_getLsbD (s := s) hi hk
  have hcarry := packCarryMask_getLsbD (s := s) hi hk
  have hk1 : (k + 1) * Ws = k * Ws + Ws := Nat.succ_mul k Ws
  have hk2 : (k + 1 + 1) * Ws = (k + 1) * Ws + Ws := Nat.succ_mul (k + 1) Ws
  rw [packSlot_d]
  by_cases hin : k * Ws ≤ i ∧ i < (k + 1) * Ws
  · rw [if_pos hin]
    by_cases hnext : (k + 1) * Ws ≤ s + i
    · have hunmasked : (packMainMask Wd Ws s k).getLsbD (Wd - 1 - i) = false :=
        Bool.eq_false_iff.2 fun hm => absurd (hmain.1 hm).2 (by omega)
      rw [rmw_getLsbD_of_masked hb (hcarry.2 ⟨hnext, hin.2⟩), rmw_getLsbD_of_unmasked hb hunmasked,
        shiftSource_element_getLsbD _ _ (by omega) hi hnext (by omega) (by rw [packCarryShift]; omega)]
    · have hunmasked : (packCarryMask Wd Ws s k).getLsbD (Wd - 1 - i) = false :=
        Bool.eq_false_iff.2 fun hm => hnext (hcarry.1 hm).1
      rw [rmw_getLsbD_of_unmasked hb hunmasked, rmw_getLsbD_of_masked hb (hmain.2 ⟨hin.1, by omega⟩), hcur,
        shiftSource_element_getLsbD (s := s) _ _ (by omega) hi (by omega) (by omega) (by omega)]
  · have hunmasked : (packMainMask Wd Ws s k).getLsbD (Wd - 1 - i) = false :=
      Bool.eq_false_iff.2 fun hm => hin ⟨(hmain.1 hm).1, by have := (hmain.1 hm).2; omega⟩
    have hunmasked' : (packCarryMask Wd Ws s k).getLsbD (Wd - 1 - i) = false :=
      Bool.eq_false_iff.2 fun hm => hin ⟨by have := (hcarry.1 hm).1; omega, (hcarry.1 hm).2⟩
    rw [if_neg hin, rmw_getLsbD_of_unmasked hb hunmasked', rmw_getLsbD_of_unmasked hb hunmasked]

end slot

/-! ### All slots (43_pack.md R186, R189) -/

/-- Destination element D combined with the source stream of memory m in its first n positions, most significant bit
first. -/
def StreamCombined (op : Op) (m : Memory) (src : Word) {Wd : Nat} (Ws s n : Nat) (D v : BitVec Wd) : Prop :=
  ∀ i < Wd, v.getLsbD (Wd - 1 - i) =
    if i < n then opBit op (D.getLsbD (Wd - 1 - i)) (streamBit m src Ws (s + i)) else D.getLsbD (Wd - 1 - i)

/-- The invariant of PACK after k slots: memory as at the start, source element k in hand if anything still needs it,
and the positions of k source elements combined. -/
structure Packed (op : Op) (m : Memory) (src : Word) {Wd Ws : Nat} (s N k : Nat) (D : BitVec Wd)
    (h : PackHeld Wd Ws) : Prop where
  mem : h.bus.mem = m
  cur : s ≠ 0 ∨ k < N → h.cur = m.readElem (elemAddr src k Ws) Ws
  combined : StreamCombined op m src Ws s (k * Ws) D h.d

theorem Packed.slot {op : Op} {m : Memory} {src : Word} {Wd Ws s N k : Nat} {D : BitVec Wd} {h : PackHeld Wd Ws}
    (hp : Packed op m src s N k D h) (hs : s < Ws) (hN : N * Ws ≤ Wd) (hk : k < N) :
    Packed op m src s N (k + 1) D (packSlot op Wd Ws src s N k h) where
  mem := (packSlot_mem ..).trans hp.mem
  cur hmore := by rw [packSlot_cur op src h hmore, hp.mem]
  combined i hi := by
    have hend : (k + 1) * Ws ≤ Wd := (Nat.mul_le_mul_right Ws hk).trans hN
    have hcur : h.cur = h.bus.mem.readElem (elemAddr src k Ws) Ws := by rw [hp.mem, hp.cur (.inr hk)]
    have hk1 : (k + 1) * Ws = k * Ws + Ws := Nat.succ_mul k Ws
    rw [packSlot_getLsbD hs hend hcur hi, hp.mem, hp.combined i hi]
    by_cases hbefore : i < k * Ws
    · rw [if_neg (by omega), if_pos hbefore, if_pos (by omega)]
    · by_cases hin : i < (k + 1) * Ws
      · rw [if_pos ⟨by omega, hin⟩, if_neg hbefore, if_pos hin]
      · rw [if_neg (by omega), if_neg hbefore, if_neg hin]

section run
variable {op : Op} {Wd Ws : Nat} {d : Descriptors}

/-- PACK's memory work is one write of the destination element, combined with the stream in every position. All source
reads come before it, so the stream is that of the memory before the command, overlapping buffers or not. -/
theorem packRun_mem (hs : d.shift.toNat < Ws) (hdvd : Ws ∣ Wd) (b : Bus) :
    ∃ v : BitVec Wd, (packRun op Wd Ws d b).mem = b.mem.writeElem (elemAddr d.dstBase 0 Wd) v ∧
      StreamCombined op b.mem d.srcBase Ws d.shift.toNat Wd (b.mem.readElem (elemAddr d.dstBase 0 Wd) Wd) v := by
  have hN : Wd / Ws * Ws = Wd := Nat.div_mul_cancel hdvd
  have hstart : Packed op b.mem d.srcBase d.shift.toNat (Wd / Ws) 0 (b.mem.readElem (elemAddr d.dstBase 0 Wd) Wd)
      { d := (dstRead d.dstBase Wd 0 b).1
        cur := (srcRead d.srcBase Ws 0 (dstRead d.dstBase Wd 0 b).2).1
        bus := (srcRead d.srcBase Ws 0 (dstRead d.dstBase Wd 0 b).2).2 } :=
    { mem := rfl
      cur := fun _ => rfl
      combined := fun i _ => by rw [Nat.zero_mul, if_neg (Nat.not_lt_zero i), dstRead_value] }
  have hend := iterate_induct (fun k => Packed op b.mem d.srcBase d.shift.toNat (Wd / Ws) k
    (b.mem.readElem (elemAddr d.dstBase 0 Wd) Wd)) (Wd / Ws) hstart fun k hk _ hp => hp.slot hs hN.le hk
  refine ⟨_, ?_, hN ▸ hend.combined⟩
  rw [packRun, dstWrite_mem, hend.mem]

end run

/-! ### The PACK command (43_pack.md R180, R188) -/

section command
variable {op : Op} {wd ws : WidthCode} {Wd Ws : Nat}

/-- What packReady says is what the checks of PACK ask. -/
theorem packChecks_of_packReady {d : Descriptors} (h : packReady d wd ws Wd Ws) : packChecks d wd ws = .ok (Wd, Ws) := by
  obtain ⟨hwd, hws, hle, hshift, hdst, hsrc⟩ := h
  exact packChecks_ok.2 ⟨narrowWidths_ok.2 ⟨hwd, hws, hle⟩, hshift, misalignedBases_eq_false.2 ⟨hdst, hsrc⟩⟩

/-- Of two element widths the smaller divides the larger: the slots fill the destination element (43_pack.md R181). -/
theorem width_dvd_of_le (hwd : widthBits wd = some Wd) (hws : widthBits ws = some Ws) (hle : Ws ≤ Wd) : Ws ∣ Wd := by
  rw [widthBits_eq hwd, widthBits_eq hws] at hle ⊢
  have hpow := Nat.le_of_mul_le_mul_left hle (by decide)
  exact Nat.mul_dvd_mul_left 8 (Nat.pow_dvd_pow 2 ((Nat.pow_le_pow_iff_right (by decide)).1 hpow))

theorem packRun_shapes_of_packReady {d : Descriptors} (h : packReady d wd ws Wd Ws) (b : Bus) :
    (packRun op Wd Ws d b).shapes = b.shapes ++ packAccesses Wd Ws d := by
  obtain ⟨-, hws, hle, -⟩ := h
  exact packRun_shapes op d b (Nat.div_pos hle (widthBits_pos hws))

/-- An accepted PACK whose listed accesses complete answers the state its run leaves. -/
theorem exec_pack_accepted {s : State} (hready : packReady s.desc wd ws Wd Ws)
    (hcomplete : allComplete s.holes (packAccesses Wd Ws s.desc)) :
    exec (.pack op wd ws) s = .next { s with
      mem := (packRun op Wd Ws s.desc ⟨s.mem, []⟩).mem
      trace := s.trace ++ (packRun op Wd Ws s.desc ⟨s.mem, []⟩).log } := by
  rw [exec_pack, packCommand, packChecks_of_packReady hready]
  exact State.finish_of_allComplete ((packRun_shapes_of_packReady hready _).trans (List.nil_append _)) hcomplete

end command

/-- Settles O37: the record of the run, which does not depend on what memory holds. -/
theorem packMakesListedAccesses : Obligations.PackMakesListedAccesses := by
  unfold Obligations.PackMakesListedAccesses
  intro op wd ws Wd Ws s hready hcomplete
  refine ⟨_, _, exec_pack_accepted hready hcomplete, rfl, ?_⟩
  exact (packRun_shapes_of_packReady hready _).trans (List.nil_append _)

/-- Settles O36: the one write of the run, read back and framed; the order of PACK's accesses gives the effect without
the premise of non-overlap. -/
theorem packNetEffect : Obligations.PackNetEffect := by
  unfold Obligations.PackNetEffect
  intro op wd ws Wd Ws s hready _ hcomplete
  have ⟨hwd, hws, hle, hshift, _⟩ := hready
  have hWd := widthBits_cases hwd
  obtain ⟨v, hmem, hv⟩ := packRun_mem (op := op) hshift (width_dvd_of_le hwd hws hle) ⟨s.mem, []⟩
  refine ⟨_, exec_pack_accepted hready hcomplete, rfl, fun i hi => ?_, fun a ha => ?_⟩
  · rw [hmem, Memory.readElem_writeElem_same _ _ _ (by omega) (by omega), hv i hi, if_pos hi]
  · rw [hmem]
    exact Memory.read_writeElem_other _ _ _ _ fun j hj he => ha j hj (BitVec.eq_of_toNat_eq he)

end Sys2Proof.Machine
end

section
/-! NOP (44_control.md R200): what exec answers for it, and the statement about it. -/

namespace Sys2Proof.Machine

/-- NOP's fields reach its own function, which is given all three and reads none (44_control.md R200). -/
theorem exec_nop (op : BitVec 3) (wd ws : WidthCode) (s : State) : exec (.nop op wd ws) s = execNop op wd ws s := rfl

/-- Settles O16: the state is answered before any field or register is looked at. -/
theorem nopChangesNothing : Obligations.NopChangesNothing := by
  unfold Obligations.NopChangesNothing
  intro op wd ws s
  rw [exec_nop, execNop]

end Sys2Proof.Machine
end

section
/-! The refusal of a command (60_exceptions.md R211 to R213): what a command with a configuration error answers, and the
statement about it. -/

namespace Sys2Proof.Machine

/-- The error R212 records, by its number in the table of R211. -/
theorem Status.record_eq_of_code (st : Status) {e : CfgErr} {n : Nat} (hn : n = (errorCode e).toNat) :
    st.record e = if st.cfgErr then st else { cfgErr := true, errCode := BitVec.ofNat 4 n } := by
  rw [hn, BitVec.ofNat_toNat, BitVec.setWidth_eq, Status.record]

/-- A command under a code other than 0 neither computes a result nor reaches memory: its only answer is the refusal
with the error of that code (60_exceptions.md R212). -/
theorem AnswersCode.eq_refuse {s : State} {n : Nat} {o : Host.Outcome State Fault Refusal} (h : AnswersCode s n o)
    (hn : n ≠ 0) : ∃ e, n = (errorCode e).toNat ∧ o = .next (s.refuse e) := by
  cases h with
  | idle => exact absurd rfl hn
  | result _ => exact absurd rfl hn
  | memory _ => exact absurd rfl hn
  | refused e => exact ⟨e, rfl, rfl⟩

/-- Settles O14: the word is answered under its code, which is not 0. That this code is the lowest that applies stands
in `State.runWord_answers`, family by family. -/
theorem refusalRecordsLowestCode : Obligations.RefusalRecordsLowestCode := by
  unfold Obligations.RefusalRecordsLowestCode
  intro s w rest hp hcode
  obtain ⟨e, he, hrun⟩ := ((s.take rest).runWord_answers w).eq_refuse hcode
  calc step s
      = (s.take rest).runWord w := step_cmd hp
    _ = .next ({ s.take rest with cmd := w }.refuse e) := hrun
    _ = _ := by
      rw [State.refuse, Status.record_eq_of_code _ he]
      rfl

end Sys2Proof.Machine
end

section
/-! Reset and hazards (70_reset_and_hazards.md R241, R242): the idle engine, what a reset in the middle of a command
leaves, and that an abandoned BLIT1D leaves whole elements. -/

namespace Sys2Proof.Machine

/-- Settles O48: the case of `step` with no event to serve. -/
theorem idleEngineDoesNothing : Obligations.IdleEngineDoesNothing :=
  fun _ => step_nil

/-! ### A command that completes, without holes -/

/-- Without holes every command answers a state. -/
theorem exec_withoutHoles (i : Instr) {s : State} (h : s.holes = []) : ∃ t, exec i s = .next t := by
  cases he : exec i s with
  | next t => exact ⟨t, rfl⟩
  | fault r => exact absurd h (exec_fault he).2
  | refused r => exact absurd he (exec_ne_refused i s r)

/-- A command that completes under the holes of s makes the same accesses without them, and each of them completes. -/
theorem exec_next_withoutHoles {i : Instr} {s t : State} {accs : List BusAccess} (h : exec i s = .next t)
    (htrace : t.trace = s.trace ++ accs) :
    exec i { s with holes := [] } = .next { t with holes := [] } ∧ accs.all (completes s.holes) = true := by
  obtain ⟨u, hu⟩ := exec_withoutHoles i (s := { s with holes := [] }) rfl
  obtain ⟨accs', haccs, -⟩ := exec_replay hu
  obtain ⟨-, -, -, -, hholes⟩ := exec_frame hu
  have hstuck := stuckExactlyWhenAccessNotCompleted i s u accs' hu haccs
  rw [h] at hstuck
  split at hstuck
  · rename_i hall
    obtain rfl := Host.Outcome.next.inj hstuck
    obtain rfl := List.append_cancel_left (htrace.symm.trans haccs)
    have hsame : u = { u with holes := [] } := congrArg (fun holes => ({ u with holes := holes } : State)) hholes
    exact ⟨hu.trans (congrArg _ hsame), hall⟩
  · cases hstuck

/-- The same for a word written to CMD, which the decoder may refuse before any access. -/
theorem State.runWord_next_withoutHoles {s t : State} {w : Word} (hs : s.trace = []) (h : s.runWord w = .next t) :
    ({ s with holes := [], trace := [] } : State).runWord w = .next { t with holes := [] } ∧
      t.trace.all (completes s.holes) = true := by
  rw [← hs]
  cases hd : decode w with
  | error e =>
    rw [State.runWord_error hd] at h ⊢
    obtain rfl := Host.Outcome.next.inj h
    simp [State.refuse, hs]
  | ok i =>
    rw [State.runWord_ok hd] at h ⊢
    obtain ⟨accs, haccs, -⟩ := exec_replay h
    have haccs' : t.trace = accs := by simpa [hs] using haccs
    exact haccs' ▸ exec_next_withoutHoles h haccs

/-- Settles O45: the command makes the accesses of t also where the platform has no holes, and they all complete, the
first k among them. -/
theorem resetDuringCommandKeepsPerformedAccesses : Obligations.ResetDuringCommandKeepsPerformedAccesses := by
  unfold Obligations.ResetDuringCommandKeepsPerformedAccesses
  intro s t w k rest hp hrun
  obtain ⟨hfree, hall⟩ := State.runWord_next_withoutHoles (s := s.take rest) rfl hrun
  have hfirst : (t.trace.take k).all (completes s.holes) = true :=
    List.all_eq_true.2 fun x hx => List.all_eq_true.1 hall x (List.mem_of_mem_take hx)
  calc step s
      = (s.take rest).resetDuring w k := step_cons hp
    _ = _ := by rw [State.resetDuring_eq k hfree]; exact if_pos hfirst

/-! ### Elements under a record cut short -/

/-- The bytes that an access writes: their first address and their number. -/
def BusAccess.written : BusAccess → Option (Word × Nat)
  | .dstWrite a n _ => some (a, n)
  | .srcRead _ _ => none
  | .dstRead _ _ => none

/-- An element with no byte in common with any write of the record reads as before. -/
theorem readElem_replay_apart (m : Memory) {l : List BusAccess} {a : Word} {W : Nat}
    (h : ∀ x ∈ l.filterMap BusAccess.written, apart x.1 x.2 a (W / 8)) :
    (replay m l).readElem a W = m.readElem a W :=
  Memory.readElem_congr fun j hj => read_replay_other m l _ fun b n _ hv i hi he =>
    h (b, n) (List.mem_filterMap.2 ⟨_, hv, rfl⟩) i hi j hj (BitVec.eq_of_toNat_eq he)

/-- A record that writes each element of a list once, cut short anywhere, leaves every element of the buffer as before
or as the whole record leaves it: the one write of the element was made, or was not. -/
theorem readElem_replay_take (m : Memory) {l : List BusAccess} {base : Word} {W : Nat} {elems : List Nat}
    (hl : l.filterMap BusAccess.written = elems.map fun e => (elemAddr base e W, W / 8)) (honce : elems.Nodup)
    (hfits : ∀ e ∈ elems, (e + 1) * (W / 8) ≤ 2 ^ 32) {e : Nat} (he : (e + 1) * (W / 8) ≤ 2 ^ 32) (k : Nat) :
    (replay m (l.take k)).readElem (elemAddr base e W) W = m.readElem (elemAddr base e W) W ∨
      (replay m (l.take k)).readElem (elemAddr base e W) W = (replay m l).readElem (elemAddr base e W) W := by
  rw [← List.take_append_drop k l, List.filterMap_append] at hl
  obtain ⟨made, left, rfl, hmade, hleft⟩ := List.append_eq_map_iff.1 hl
  have hapart : ∀ part ⊆ made ++ left, e ∉ part →
      ∀ x ∈ part.map fun e => (elemAddr base e W, W / 8), apart x.1 x.2 (elemAddr base e W) (W / 8) := by
    intro part hsub hnot x hx
    obtain ⟨e', he', rfl⟩ := List.mem_map.1 hx
    exact elements_apart base (hfits e' (hsub he')) he fun heq => hnot (heq ▸ he')
  by_cases hin : e ∈ made
  · right
    have hnot : e ∉ left := List.disjoint_of_nodup_append honce hin
    conv_rhs => rw [← List.take_append_drop k l, replay_append]
    exact (readElem_replay_apart _ (hleft ▸ hapart left (by simp) hnot)).symm
  · exact .inl (readElem_replay_apart m (hmade ▸ hapart made (by simp) hin))

/-! ### BLIT1D writes each destination element of its run once -/

theorem BusAccess.written_shape (x : BusAccess) : x.shape.written = x.written := by
  cases x <;> rfl

theorem Bus.shapes_written (b : Bus) : b.shapes.filterMap BusAccess.written = b.log.filterMap BusAccess.written := by
  rw [Bus.shapes, List.filterMap_map]
  exact List.filterMap_congr fun x _ => x.written_shape

/-- Passes that each write one stretch of bytes write those stretches, in order. -/
theorem written_flatMap {g : Nat → List BusAccess} {f : Nat → Word × Nat}
    (h : ∀ j, (g j).filterMap BusAccess.written = [f j]) (l : List Nat) :
    (l.flatMap g).filterMap BusAccess.written = l.map f := by
  induction l with
  | nil => rfl
  | cons j l ih => rw [List.flatMap_cons, List.filterMap_append, h, ih, List.map_cons, List.singleton_append]

/-- The writes of a run: every destination element it touches, from the first to the last, once each
(41_blit1d.md R125, R126, R130). -/
theorem rowAccesses_written {op : Op} {W : Nat} {dst src : Word} {de se p n : Nat} (hW : 0 < W) :
    (rowAccesses op W dst src de se p n).filterMap BusAccess.written =
      (List.range (if n = 0 then 0 else ceilDiv (p + n) W)).map fun j => (elemAddr dst (de + j) W, W / 8) := by
  by_cases hn : n = 0
  · subst hn
    rfl
  rw [if_neg hn]
  by_cases hs : p + n ≤ W
  · have hone : ceilDiv (p + n) W = 1 := by
      rw [ceilDiv_eq_pred_div hW (by omega), Nat.div_eq_of_lt (by omega)]
    rw [rowAccesses_subElement hn hs, hone]
    rfl
  unfold rowAccesses
  dsimp only
  rw [if_neg hn, if_neg hs]
  by_cases hp0 : p = 0
  · rw [if_pos hp0, hp0, Nat.zero_add, List.filterMap_append,
      written_flatMap (f := fun k => (elemAddr dst (de + k) W, W / 8))]
    · by_cases ht : n % W = 0
      · rw [if_pos ht, ceilDiv_of_mod_eq_zero hW ht, List.filterMap_nil, List.append_nil]
      · rw [if_neg ht, ceilDiv_of_mod_ne_zero hW ht, List.range_succ, List.map_append]
        rfl
    · intro k
      split <;> rfl
  · rw [if_neg hp0, ceilDiv_eq_pred_div hW (by omega), List.range_succ_eq_map, List.map_cons, List.map_map,
      List.filterMap_append, written_flatMap (f := fun j => (elemAddr dst (de + (j + 1)) W, W / 8))]
    · rfl
    · intro j
      split <;> rfl

/-- The destination elements of a BLIT1D run: those it writes, none when it is empty (41_blit1d.md R123, R132). -/
def blit1dElements (d : Descriptors) (W : Nat) : List Nat :=
  (List.range (if runLength d W = 0 then 0 else ceilDiv (d.dstX.toNat % W + runLength d W) W)).map
    (d.dstX.toNat / W + ·)

theorem blit1dElements_nodup (d : Descriptors) (W : Nat) : (blit1dElements d W).Nodup :=
  List.nodup_range.map fun _ _ => Nat.add_left_cancel

/-- Offset and length of 32 bits count bits, so no destination element of a BLIT1D run lies past 2^32 bytes. -/
theorem elementEnd_le {d : Descriptors} {W e : Nat} (hW : W = 8 ∨ W = 16 ∨ W = 32)
    (he : e < ceilDiv (d.dstX.toNat + runLength d W) W) : (e + 1) * (W / 8) ≤ 2 ^ 32 := by
  have hoff := d.dstX.isLt
  have hn := runLength_lt d W
  rw [lt_ceilDiv (by omega)] at he
  rcases hW with rfl | rfl | rfl <;> omega

theorem blit1dElements_lt {d : Descriptors} {W e : Nat} (hW : 0 < W) (he : e ∈ blit1dElements d W) :
    e < ceilDiv (d.dstX.toNat + runLength d W) W := by
  obtain ⟨j, hj, rfl⟩ := List.mem_map.1 he
  have hoff := Nat.div_add_mod' d.dstX.toNat W
  split at hj
  · exact absurd hj (by simp)
  · rw [List.mem_range, lt_ceilDiv hW] at hj
    rw [lt_ceilDiv hW, Nat.add_mul]
    omega

theorem blit1dAccesses_written {op : Op} {W : Nat} (d : Descriptors) (hW : 0 < W) :
    (blit1dAccesses op W d).filterMap BusAccess.written =
      (blit1dElements d W).map fun e => (elemAddr d.dstBase e W, W / 8) := by
  rw [blit1dAccesses, rowAccesses_written hW, blit1dElements, List.map_map]
  rfl

/-- What the run of an accepted BLIT1D records, replayed, is what it does to memory; and the record writes each
destination element once. -/
theorem blit1dRun_record {d : Descriptors} {wd ws : WidthCode} {W : Nat} (h : blitReady d wd ws W) (op : Op)
    (m : Memory) :
    (blit1dRun op W d ⟨m, []⟩).mem = replay m (blit1dRun op W d ⟨m, []⟩).log ∧
      (blit1dRun op W d ⟨m, []⟩).log.filterMap BusAccess.written =
        (blit1dElements d W).map fun e => (elemAddr d.dstBase e W, W / 8) := by
  have hrun := MemoryRun.blit1d op W (blit1dChecks_of_blitReady h)
  refine ⟨hrun.keeps (fun _ _ => replayed_kept m) rfl, ?_⟩
  have hW := widthBits_pos h.1
  rw [← Bus.shapes_written, blit1dRun_shapes op d _ hW, Bus.shapes_nil, List.nil_append, blit1dAccesses_written d hW]

/-- Settles O46: the accesses performed are the first k of a record that writes each destination element once, so the
source may overlap the destination. -/
theorem abandonedBlit1dElementsOldOrNew : Obligations.AbandonedBlit1dElementsOldOrNew := by
  unfold Obligations.AbandonedBlit1dElementsOldOrNew
  intro op wd ws W k s w rest hp hdecode hready hcomplete
  have hW := widthBits_cases hready.1
  have hrun := (State.runWord_ok (s := s.take rest) hdecode).trans
    (exec_blit1d_accepted (s := { s.take rest with cmd := w }) hready hcomplete)
  refine ⟨_, _, exec_blit1d_accepted hready hcomplete,
    resetDuringCommandKeepsPerformedAccesses s _ w k rest hp hrun, fun e he _ => ?_⟩
  obtain ⟨hmem, hwritten⟩ := blit1dRun_record hready op s.mem
  dsimp only
  rw [hmem]
  exact readElem_replay_take s.mem hwritten (blit1dElements_nodup s.desc W)
    (fun e he => elementEnd_le hW (blit1dElements_lt (by omega) he)) (elementEnd_le hW he) k

end Sys2Proof.Machine
end
